-- ==== Sys2Proof/Word.lean ====
section
/-! DEFINITION. The word types of the sequencer: a byte (a shadow register, a geometry field, a payload byte) and an
operation word (30_encoding.md R48). Every value is unsigned (00_scope.md R12). -/

namespace Sys2Proof

/-- Eight bits: shadow registers, geometry fields, operand fields, payload bytes. -/
abbrev Byte := BitVec 8

/-- One operation word of the operation port, 32 bits (R48). -/
abbrev OpWord := BitVec 32

end Sys2Proof
end

