-- ==== Sys2Proof/Config.lean ====
section
/-! DEFINITION. What one construction of the sequencer fixes: the fixed parameters of 00_scope.md R8, the pin wiring of
R9, and the named delays of R10 with their constraints. -/

namespace Sys2Proof

/-- An identifier of a GPIO line (R9, R18). The block never computes with one. -/
abbrev Pin := Nat

/-- The six construction parameters of an instance (R9, R18): `RS_PIN`, `E_PIN`, `D_PIN[0..3]`. -/
structure Wiring where
  rs : Pin
  e  : Pin
  d0 : Pin
  d1 : Pin
  d2 : Pin
  d3 : Pin
deriving DecidableEq, Repr

/-- The six pins in the order INIT configures them (40_initialize.md R70, D4). -/
def Wiring.pins (w : Wiring) : List Pin := [w.rs, w.e, w.d0, w.d1, w.d2, w.d3]

/-- The delays the block waits, by name (R10). -/
inductive Delay where
  | wake1 | wake2 | wake3 | commit | cmd | long
deriving DecidableEq, Repr

/-- Values of the timing parameters in milliseconds (R10). The spec leaves them open, so nothing in the machine reads
one: an event names its delay, and a claim about durations is made for every `Timing`. That a delay is a whole number of
milliseconds is a DESIGN CHOICE (log entry 18): the spec gives the unit and no more. -/
structure Timing where
  wake1   : Nat
  wake2   : Nat
  wake3   : Nat
  commit  : Nat
  cmd     : Nat
  long    : Nat
  /-- a duty of the host before INIT, not waited by the block -/
  powerup : Nat
deriving DecidableEq, Repr

/-- The lower bound, in milliseconds, of the wait a delay names. -/
def Timing.ms (t : Timing) : Delay → Nat
  | .wake1  => t.wake1
  | .wake2  => t.wake2
  | .wake3  => t.wake3
  | .commit => t.commit
  | .cmd    => t.cmd
  | .long   => t.long

/-- The constraints of R10 (D8, D9). -/
abbrev Timing.Valid (t : Timing) : Prop :=
  t.wake1 ≥ t.wake2 ∧ t.wake2 ≥ t.wake3 ∧ t.wake1 > t.wake3 ∧ t.long > t.cmd

namespace Config

/-- The pin identifiers `State.reset` is constructed with. DESIGN CHOICE (log entry 5): R9 leaves them to the
construction; unsafe for a claim that names one of these numbers. -/
def wiring : Wiring where
  rs := 0
  e  := 1
  d0 := 2
  d1 := 3
  d2 := 4
  d3 := 5

/-- R8 `DEFAULT_COLUMNS`. -/
def defaultColumns : Byte := 16
/-- R8 `DEFAULT_ROWS`. -/
def defaultRows : Byte := 2
/-- R8 `DEFAULT_CHARSIZE`. -/
def defaultCharsize : BitVec 1 := 0
/-- R11: an operation carries at most 65535 payload bytes. -/
def maxPayload : Nat := 65535
/-- R27: the longest expansion, PRINT of 65535 bytes. -/
def longestExpansion : Nat := 1048560

/-- R10: the reference values that the spec's vectors use. They are the spec's choice for writing vectors, not values of
its source, and it gives none for `T_POWERUP`. -/
def referenceTiming (powerup : Nat) : Timing where
  wake1   := 5
  wake2   := 5
  wake3   := 1
  commit  := 1
  cmd     := 1
  long    := 2
  powerup := powerup

end Config
end Sys2Proof
end

