-- ==== Sys2Proof/Syntax.lean ====
section
/-! DEFINITION. The instruction set: one constructor per row of spec/opcode_table.json. The 18 operations are format
op32 (30_encoding.md R50), the nine byte items format wire9 (R53–R61), the two nibble items format nib5 (R62, R63). -/

namespace Sys2Proof

/-- The refusal codes of 60_exceptions.md R98. -/
inductive RefusalCode where
  | busy | badOpcode | badOperand | badPayload | notReady | reinit | rowRange
deriving DecidableEq, Repr

/-- The code's number in R98. -/
def RefusalCode.number : RefusalCode → Nat
  | .busy       => 1
  | .badOpcode  => 2
  | .badOperand => 3
  | .badPayload => 4
  | .notReady   => 5
  | .reinit     => 6
  | .rowRange   => 7

/-- The payload of DEFGLYPH: exactly eight bitmap rows, row 0 first (R49, R92). -/
structure Glyph where
  r0 : Byte
  r1 : Byte
  r2 : Byte
  r3 : Byte
  r4 : Byte
  r5 : Byte
  r6 : Byte
  r7 : Byte
deriving DecidableEq, Repr

/-- The rows in payload order. -/
def Glyph.rows (g : Glyph) : List Byte := [g.r0, g.r1, g.r2, g.r3, g.r4, g.r5, g.r6, g.r7]

inductive Instr where
  /-- R69, R70: a geometry or font override that is `none` is not supplied (its presence bit is 0). -/
  | init (cols rows : Option Byte) (csize : Option (BitVec 1))
  | wrbyte (value : Byte)
  | cmd (code : Byte)
  | clear
  | home
  | on
  | off
  | cursor (en : Bool)
  | blink (en : Bool)
  | scrl
  | scrr
  | ltr
  | rtl
  | justr
  | justl
  | defglyph (index : Byte) (bitmap : Glyph)
  | setcur (column row : Byte)
  | print (text : List Byte)
  /-- R53 -/
  | wClear
  /-- R54: `dc` is the ignored bit 0. -/
  | wHome (dc : BitVec 1)
  /-- R55 -/
  | wEntry (id s : Bool)
  /-- R56 -/
  | wDispctl (d c b : Bool)
  /-- R57: `dc` is the ignored bits 1:0. -/
  | wShift (sc rl : Bool) (dc : BitVec 2)
  /-- R58: `dc` is the ignored bits 1:0. -/
  | wFunc (dl n f : Bool) (dc : BitVec 2)
  /-- R59 -/
  | wCgram (addr : BitVec 6)
  /-- R60 -/
  | wDdram (addr : BitVec 7)
  /-- R61 -/
  | wData (v : Byte)
  /-- R62 -/
  | nWake
  /-- R63 -/
  | nCommit4
deriving DecidableEq, Repr

/-- The row's mnemonic in spec/opcode_table.json. -/
def Instr.mnemonic : Instr → String
  | .init _ _ _     => "INIT"
  | .wrbyte _       => "WRBYTE"
  | .cmd _          => "CMD"
  | .clear          => "CLEAR"
  | .home           => "HOME"
  | .on             => "ON"
  | .off            => "OFF"
  | .cursor _       => "CURSOR"
  | .blink _        => "BLINK"
  | .scrl           => "SCRL"
  | .scrr           => "SCRR"
  | .ltr            => "LTR"
  | .rtl            => "RTL"
  | .justr          => "JUSTR"
  | .justl          => "JUSTL"
  | .defglyph _ _   => "DEFGLYPH"
  | .setcur _ _     => "SETCUR"
  | .print _        => "PRINT"
  | .wClear         => "W.CLEAR"
  | .wHome _        => "W.HOME"
  | .wEntry _ _     => "W.ENTRY"
  | .wDispctl _ _ _ => "W.DISPCTL"
  | .wShift _ _ _   => "W.SHIFT"
  | .wFunc _ _ _ _  => "W.FUNC"
  | .wCgram _       => "W.CGRAM"
  | .wDdram _       => "W.DDRAM"
  | .wData _        => "W.DATA"
  | .nWake          => "N.WAKE"
  | .nCommit4       => "N.COMMIT4"

/-- Whether the instruction is an operation of the operation port (format op32, R50) or one of the items the block
itself produces (R52). -/
def Instr.isOperation : Instr → Bool
  | .init _ _ _ | .wrbyte _ | .cmd _ | .clear | .home | .on | .off | .cursor _ | .blink _ | .scrl | .scrr | .ltr | .rtl
  | .justr | .justl | .defglyph _ _ | .setcur _ _ | .print _ => true
  | .wClear | .wHome _ | .wEntry _ _ | .wDispctl _ _ _ | .wShift _ _ _ | .wFunc _ _ _ _ | .wCgram _ | .wDdram _
  | .wData _ | .nWake | .nCommit4 => false

/-- INIT, the one operation that is accepted while `ready = 0` and refused while `ready = 1` (60_exceptions.md R99). -/
def Instr.isInit : Instr → Bool
  | .init _ _ _ => true
  | .wrbyte _ | .cmd _ | .clear | .home | .on | .off | .cursor _ | .blink _ | .scrl | .scrr | .ltr | .rtl
  | .justr | .justl | .defglyph _ _ | .setcur _ _ | .print _ => false
  | .wClear | .wHome _ | .wEntry _ _ | .wDispctl _ _ _ | .wShift _ _ _ | .wFunc _ _ _ _ | .wCgram _ | .wDdram _
  | .wData _ | .nWake | .nCommit4 => false

end Sys2Proof
end

