-- ==== Sys2Proof/WellFormed.lean ====
section
/-! DEFINITION. What a term must meet to stand for an instruction or a construction of this hardware. -/

namespace Sys2Proof

/-- An instruction is well formed when the encoding can carry it. The types already bound every operand but the length
of PRINT's payload, a 16-bit field (30_encoding.md R49, 00_scope.md R11). -/
def Instr.wellFormed : Instr → Bool
  | .print text => decide (text.length ≤ Config.maxPayload)
  | .init _ _ _ | .wrbyte _ | .cmd _ | .clear | .home | .on | .off | .cursor _ | .blink _ | .scrl | .scrr | .ltr | .rtl
  | .justr | .justl | .defglyph _ _ | .setcur _ _ => true
  | .wClear | .wHome _ | .wEntry _ _ | .wDispctl _ _ _ | .wShift _ _ _ | .wFunc _ _ _ _ | .wCgram _ | .wDdram _
  | .wData _ | .nWake | .nCommit4 => true

abbrev WellFormed (i : Instr) : Prop := i.wellFormed = true

/-- The six pins are pairwise distinct; a construction with a repeat is outside the spec (00_scope.md R9, D23). -/
abbrev Wiring.Distinct (w : Wiring) : Prop := w.pins.Nodup

end Sys2Proof
end

