-- ==== Sys2Proof/Decode.lean ====
section
/-! DEFINITION. From the words on the operation port and on the wire to instructions and back: the decoder (total, a
rejection has a name), the encoder, the byte path of an operation word, and the opcode table's masks.
30_encoding.md R48–R66, 20_memory.md R39. -/

namespace Sys2Proof

/-- What is handed to the decoder: an operation word with its payload (R48, R49), a byte item (R52: nine bits, RS in bit
8), or a nibble item (R52: five bits, RS in bit 4). The items are carried in whole bytes, the bits above the item 0
(log entry 8). -/
inductive Encoded where
  | op (word : OpWord) (payload : List Byte)
  | wire (w : BitVec 16)
  | nibble (n : BitVec 8)
deriving DecidableEq, Repr

/-- Why a word stands for no instruction. -/
inductive Reject where
  /-- an operation the block refuses with this code (60_exceptions.md R98) -/
  | code (c : RefusalCode)
  /-- a byte item with no class: `0:0x00` (R65), or a bit above the item -/
  | noWireClass (w : BitVec 16)
  /-- a nibble item that is neither N.WAKE nor N.COMMIT4 (R62, R63) -/
  | noNibbleItem (n : BitVec 8)
deriving DecidableEq, Repr

/-! ## The operation word -/

/-- R48: `OPC`, bits 7:0. -/
def fieldOpc (w : OpWord) : Byte := w.extractLsb' 0 8
/-- R48: `A`, bits 15:8. -/
def fieldA (w : OpWord) : Byte := w.extractLsb' 8 8
/-- R48: `B`, bits 23:16. -/
def fieldB (w : OpWord) : Byte := w.extractLsb' 16 8
/-- R48: `C`, bits 31:24. -/
def fieldC (w : OpWord) : Byte := w.extractLsb' 24 8

/-- R48: the four fields as one word. -/
def packWord (opc a b c : Byte) : OpWord := c ++ b ++ a ++ opc

/-- R49: `LEN = B ++ A`. -/
def fieldLen (w : OpWord) : Nat := (fieldB w ++ fieldA w).toNat

/-- R51, R98, R100: a reserved operand bit is checked before the payload. -/
def checked (reservedClear : Bool) (i : Option Instr) : Except RefusalCode Instr :=
  if reservedClear then
    match i with
    | some i => .ok i
    | none   => .error .badPayload
  else .error .badOperand

/-- R49: an operation that carries no payload. -/
def noPayload (payload : List Byte) (i : Instr) : Option Instr :=
  match payload with
  | []     => some i
  | _ :: _ => none

/-- R49: DEFGLYPH's payload is exactly eight bytes. -/
def glyphOf : List Byte → Option Glyph
  | [r0, r1, r2, r3, r4, r5, r6, r7] => some ⟨r0, r1, r2, r3, r4, r5, r6, r7⟩
  | _ => none

/-- R49: PRINT's payload is exactly LEN bytes. -/
def printOf (len : Nat) (payload : List Byte) : Option Instr :=
  if payload.length = len then some (.print payload) else none

/-- R69: an operand that is supplied only when its presence bit is 1. -/
def supplied {α : Type} (present : Bool) (v : α) : Option α :=
  if present then some v else none

/-- R50, R51, R100: the operation an operation word and its payload select, or the code it is refused with. -/
def decodeOp (w : OpWord) (payload : List Byte) : Except RefusalCode Instr :=
  let a := fieldA w
  let b := fieldB w
  let c := fieldC w
  let none3 := decide (a = 0 ∧ b = 0 ∧ c = 0)
  match (fieldOpc w).toNat with
  | 0x01 => checked (decide (c &&& 0x8E = 0)) (noPayload payload
      (.init (supplied (c.getLsbD 4) a) (supplied (c.getLsbD 5) b) (supplied (c.getLsbD 6) (c.extractLsb' 0 1))))
  | 0x02 => checked (decide (b = 0 ∧ c = 0)) (noPayload payload (.wrbyte a))
  | 0x03 => checked (decide (b = 0 ∧ c = 0)) (noPayload payload (.cmd a))
  | 0x04 => checked none3 (noPayload payload .clear)
  | 0x05 => checked none3 (noPayload payload .home)
  | 0x06 => checked none3 (noPayload payload .on)
  | 0x07 => checked none3 (noPayload payload .off)
  | 0x08 => checked (decide (a &&& 0xFE = 0 ∧ b = 0 ∧ c = 0)) (noPayload payload (.cursor (a.getLsbD 0)))
  | 0x09 => checked (decide (a &&& 0xFE = 0 ∧ b = 0 ∧ c = 0)) (noPayload payload (.blink (a.getLsbD 0)))
  | 0x0A => checked none3 (noPayload payload .scrl)
  | 0x0B => checked none3 (noPayload payload .scrr)
  | 0x0C => checked none3 (noPayload payload .ltr)
  | 0x0D => checked none3 (noPayload payload .rtl)
  | 0x0E => checked none3 (noPayload payload .justr)
  | 0x0F => checked none3 (noPayload payload .justl)
  | 0x10 => checked (decide (b = 0 ∧ c = 0)) ((glyphOf payload).map (.defglyph a))
  | 0x11 => checked (decide (c = 0)) (noPayload payload (.setcur a b))
  | 0x12 => checked (decide (c = 0)) (printOf (fieldLen w) payload)
  | _    => .error .badOpcode

/-! ## The wire items -/

/-- R65: RS = 1 is W.DATA; for RS = 0 the class is the position of the most significant 1 bit of the byte. -/
def decodeWire (x : BitVec 9) : Option Instr :=
  if x.getLsbD 8 then some (.wData (x.extractLsb' 0 8))
  else if x.getLsbD 7 then some (.wDdram (x.extractLsb' 0 7))
  else if x.getLsbD 6 then some (.wCgram (x.extractLsb' 0 6))
  else if x.getLsbD 5 then some (.wFunc (x.getLsbD 4) (x.getLsbD 3) (x.getLsbD 2) (x.extractLsb' 0 2))
  else if x.getLsbD 4 then some (.wShift (x.getLsbD 3) (x.getLsbD 2) (x.extractLsb' 0 2))
  else if x.getLsbD 3 then some (.wDispctl (x.getLsbD 2) (x.getLsbD 1) (x.getLsbD 0))
  else if x.getLsbD 2 then some (.wEntry (x.getLsbD 1) (x.getLsbD 0))
  else if x.getLsbD 1 then some (.wHome (x.extractLsb' 0 1))
  else if x.getLsbD 0 then some .wClear
  else none

/-- R62, R63. -/
def decodeNibble (x : BitVec 5) : Option Instr :=
  if x = 0x3 then some .nWake
  else if x = 0x2 then some .nCommit4
  else none

/-- The decoder: total, and every word that stands for no instruction is rejected by name. -/
def decode : Encoded → Except Reject Instr
  | .op w payload =>
    match decodeOp w payload with
    | .ok i    => .ok i
    | .error c => .error (.code c)
  | .wire w =>
    match (if w.extractLsb' 9 7 = 0 then decodeWire (w.extractLsb' 0 9) else none) with
    | some i => .ok i
    | none   => .error (.noWireClass w)
  | .nibble n =>
    match (if n.extractLsb' 5 3 = 0 then decodeNibble (n.extractLsb' 0 5) else none) with
    | some i => .ok i
    | none   => .error (.noNibbleItem n)

/-! ## The encoder -/

/-- A one-bit field. -/
def bit (b : Bool) : BitVec 1 := BitVec.ofBool b

/-- R50: INIT's flags operand, `C[0]` = characterSize, `C[4]` = PC, `C[5]` = PR, `C[6]` = PS. -/
def initFlags (cols rows : Option Byte) (csize : Option (BitVec 1)) : Byte :=
  0#1 ++ bit csize.isSome ++ bit rows.isSome ++ bit cols.isSome ++ 0#3 ++ csize.getD 0

/-- R49: LEN as the operand fields, `A` the low byte. -/
def lenLow (text : List Byte) : Byte := BitVec.ofNat 8 text.length
def lenHigh (text : List Byte) : Byte := BitVec.ofNat 8 (text.length / 256)

/-- A byte item in its 16-bit carrier. -/
def carryWire (x : BitVec 9) : Encoded := .wire (0#7 ++ x)
/-- A nibble item in its 8-bit carrier. -/
def carryNibble (x : BitVec 5) : Encoded := .nibble (0#3 ++ x)

/-- The words of a well-formed instruction: R50 for an operation (an operand that is not supplied is sent as 0), R53–R61
for a byte item, R62 and R63 for a nibble item. -/
def encode : Instr → Encoded
  | .init cols rows csize => .op (packWord 0x01 (cols.getD 0) (rows.getD 0) (initFlags cols rows csize)) []
  | .wrbyte v       => .op (packWord 0x02 v 0 0) []
  | .cmd code       => .op (packWord 0x03 code 0 0) []
  | .clear          => .op (packWord 0x04 0 0 0) []
  | .home           => .op (packWord 0x05 0 0 0) []
  | .on             => .op (packWord 0x06 0 0 0) []
  | .off            => .op (packWord 0x07 0 0 0) []
  | .cursor en      => .op (packWord 0x08 (0#7 ++ bit en) 0 0) []
  | .blink en       => .op (packWord 0x09 (0#7 ++ bit en) 0 0) []
  | .scrl           => .op (packWord 0x0A 0 0 0) []
  | .scrr           => .op (packWord 0x0B 0 0 0) []
  | .ltr            => .op (packWord 0x0C 0 0 0) []
  | .rtl            => .op (packWord 0x0D 0 0 0) []
  | .justr          => .op (packWord 0x0E 0 0 0) []
  | .justl          => .op (packWord 0x0F 0 0 0) []
  | .defglyph index bitmap => .op (packWord 0x10 index 0 0) bitmap.rows
  | .setcur column row => .op (packWord 0x11 column row 0) []
  | .print text     => .op (packWord 0x12 (lenLow text) (lenHigh text) 0) text
  | .wClear         => carryWire 0x001
  | .wHome dc       => carryWire (0b00000001#8 ++ dc)
  | .wEntry id s    => carryWire (0b0000001#7 ++ bit id ++ bit s)
  | .wDispctl d c b => carryWire (0b000001#6 ++ bit d ++ bit c ++ bit b)
  | .wShift sc rl dc => carryWire (0b00001#5 ++ bit sc ++ bit rl ++ dc)
  | .wFunc dl n f dc => carryWire (0b0001#4 ++ bit dl ++ bit n ++ bit f ++ dc)
  | .wCgram addr    => carryWire (0b001#3 ++ addr)
  | .wDdram addr    => carryWire (0b01#2 ++ addr)
  | .wData v        => carryWire (1#1 ++ v)
  | .nWake          => carryNibble 0x03
  | .nCommit4       => carryNibble 0x02

/-! ## The byte path -/

/-- R39: the bytes of an operation, the word least-significant byte first, then the payload. -/
def toBytes (word : OpWord) (payload : List Byte) : List Byte :=
  fieldOpc word :: fieldA word :: fieldB word :: fieldC word :: payload

/-- R39: the operation that arrives as one message of bytes; fewer than four bytes carry no operation word. -/
def ofBytes : List Byte → Option Encoded
  | opc :: a :: b :: c :: payload => some (.op (packWord opc a b c) payload)
  | _ => none

/-- R49, R66: the payload length an operation word calls for. -/
def payloadLength (w : OpWord) : Nat :=
  match (fieldOpc w).toNat with
  | 0x10 => 8
  | 0x12 => fieldLen w
  | _    => 0

/-! ## The opcode table -/

inductive Format where
  | op32 | wire9 | nib5
deriving DecidableEq, Repr

/-- A row of spec/opcode_table.json. -/
structure TableRow where
  mnemonic : String
  format   : Format
  pattern  : Nat
  mask     : Nat
deriving DecidableEq, Repr

/-- The 18 operations of spec/opcode_table.json. -/
def opRows : List TableRow :=
  [ ⟨"INIT",     .op32, 0x00000001, 0x8E0000FF⟩,
    ⟨"WRBYTE",   .op32, 0x00000002, 0xFFFF00FF⟩,
    ⟨"CMD",      .op32, 0x00000003, 0xFFFF00FF⟩,
    ⟨"CLEAR",    .op32, 0x00000004, 0xFFFFFFFF⟩,
    ⟨"HOME",     .op32, 0x00000005, 0xFFFFFFFF⟩,
    ⟨"ON",       .op32, 0x00000006, 0xFFFFFFFF⟩,
    ⟨"OFF",      .op32, 0x00000007, 0xFFFFFFFF⟩,
    ⟨"CURSOR",   .op32, 0x00000008, 0xFFFFFEFF⟩,
    ⟨"BLINK",    .op32, 0x00000009, 0xFFFFFEFF⟩,
    ⟨"SCRL",     .op32, 0x0000000A, 0xFFFFFFFF⟩,
    ⟨"SCRR",     .op32, 0x0000000B, 0xFFFFFFFF⟩,
    ⟨"LTR",      .op32, 0x0000000C, 0xFFFFFFFF⟩,
    ⟨"RTL",      .op32, 0x0000000D, 0xFFFFFFFF⟩,
    ⟨"JUSTR",    .op32, 0x0000000E, 0xFFFFFFFF⟩,
    ⟨"JUSTL",    .op32, 0x0000000F, 0xFFFFFFFF⟩,
    ⟨"DEFGLYPH", .op32, 0x00000010, 0xFFFF00FF⟩,
    ⟨"SETCUR",   .op32, 0x00000011, 0xFF0000FF⟩,
    ⟨"PRINT",    .op32, 0x00000012, 0xFF0000FF⟩ ]

/-- The nine byte items and two nibble items of spec/opcode_table.json. -/
def itemRows : List TableRow :=
  [ ⟨"W.CLEAR",   .wire9, 0x001, 0x1FF⟩,
    ⟨"W.HOME",    .wire9, 0x002, 0x1FE⟩,
    ⟨"W.ENTRY",   .wire9, 0x004, 0x1FC⟩,
    ⟨"W.DISPCTL", .wire9, 0x008, 0x1F8⟩,
    ⟨"W.SHIFT",   .wire9, 0x010, 0x1F0⟩,
    ⟨"W.FUNC",    .wire9, 0x020, 0x1E0⟩,
    ⟨"W.CGRAM",   .wire9, 0x040, 0x1C0⟩,
    ⟨"W.DDRAM",   .wire9, 0x080, 0x180⟩,
    ⟨"W.DATA",    .wire9, 0x100, 0x100⟩,
    ⟨"N.WAKE",    .nib5,  0x03,  0x1F⟩,
    ⟨"N.COMMIT4", .nib5,  0x02,  0x1F⟩ ]

/-- Whether a word has a row's fixed bits. -/
def TableRow.hits (r : TableRow) (w : Nat) : Bool := w &&& r.mask == r.pattern

/-! ## A word as the table numbers it -/

/-- The words of an instruction whose bits, as spec/opcode_table.json numbers them, are `w`: at most 8 bits is a nibble
item, at most 16 a byte item, else an operation that arrives as bytes (R39) with every payload byte 0. -/
def tableWord (nbits w : Nat) : Option Encoded :=
  if nbits ≤ 8 then some (.nibble (BitVec.ofNat 8 w))
  else if nbits ≤ 16 then some (.wire (BitVec.ofNat 16 w))
  else ofBytes (toBytes (BitVec.ofNat 32 w) (List.replicate (payloadLength (BitVec.ofNat 32 w)) 0))

/-- The instruction the decoder reads from such a word. -/
def decodeTableWord (nbits w : Nat) : Option Instr :=
  match tableWord nbits w with
  | none => none
  | some e =>
    match decode e with
    | .ok i    => some i
    | .error _ => none

end Sys2Proof
end

