-- ==== Sys2Proof/Machine/State.lean ====
section
/-! DEFINITION. The state of the sequencer (10_state.md R17–R29), the host's side of it that the model adds, why a step
can stop, and the state after reset (R33, 70_reset_and_hazards.md R111). -/

namespace Sys2Proof.Machine

/-- One action of the output port (60_exceptions.md R106). -/
inductive Event where
  /-- configure pin `p` as output -/
  | cfg (p : Pin)
  /-- write level `l` on pin `p` -/
  | wr (p : Pin) (l : Bool)
  /-- a blocking delay of at least the named duration (R105) -/
  | wait (t : Delay)
deriving DecidableEq, Repr

/-- R29: `mode[p]`. -/
inductive PinMode where
  | unconfigured | output
deriving DecidableEq, Repr

/-- R29: `lvl[p]`, 0, 1 or ⊥ (no known level). -/
inductive Level where
  | low | high | unknown
deriving DecidableEq, Repr

structure PinState where
  mode  : PinMode
  level : Level
deriving DecidableEq, Repr

/-- The output state of the six owned pins (R29), each under the line it is wired to; `Wiring` says which identifier an
event must name to reach it. -/
structure PinBank where
  rs : PinState
  e  : PinState
  d0 : PinState
  d1 : PinState
  d2 : PinState
  d3 : PinState
deriving DecidableEq, Repr

/-- R29, R33: every pin unconfigured at ⊥. -/
def PinBank.reset : PinBank where
  rs := ⟨.unconfigured, .unknown⟩
  e  := ⟨.unconfigured, .unknown⟩
  d0 := ⟨.unconfigured, .unknown⟩
  d1 := ⟨.unconfigured, .unknown⟩
  d2 := ⟨.unconfigured, .unknown⟩
  d3 := ⟨.unconfigured, .unknown⟩

/-- When an input of the host reaches the block (log entry 2). -/
inductive Arrival where
  /-- a blocking call: only when the queue has drained (60_exceptions.md R108) -/
  | drained
  /-- after `n` more steps, whatever the queue holds: an overlapping operation (R108) or a reset in the middle of an
  operation (R111) -/
  | after (n : Nat)
deriving DecidableEq, Repr

inductive Request where
  /-- an operation on the operation port (R48); or a byte or nibble item handed to the block's own SEND or NIBBLE, which
  no host can do (41_transfer.md, log entry 6) -/
  | encoded (e : Encoded)
  /-- reset, which is construction (R111) -/
  | reset
deriving DecidableEq, Repr

structure Input where
  arrival : Arrival
  request : Request
deriving DecidableEq, Repr

structure State where
  /-- R18 -/
  wiring  : Wiring
  /-- R19 `cfg.cols` -/
  cols    : Byte
  /-- R20 `cfg.rows` -/
  rows    : Byte
  /-- R21 `cfg.csize` -/
  csize   : BitVec 1
  /-- R22 `sh.func` -/
  shFunc  : Byte
  /-- R23 `sh.ctrl` -/
  shCtrl  : Byte
  /-- R24 `sh.entry` -/
  shEntry : Byte
  /-- R26 -/
  ready   : Bool
  /-- R26 -/
  refused : Option RefusalCode
  /-- R28: the pending events, the next one first -/
  queue   : List Event
  /-- R27: the micro-sequence index, the position of the next event in the accepted operation's expansion -/
  micro   : Nat
  /-- R29 -/
  pins    : PinBank
  /-- R28: the performed events, the oldest first -/
  trace   : List Event
  /-- R98: the last issued input -/
  issued  : Option Encoded
  /-- the model's own field: the host's inputs not yet taken, the next one first (log entry 2) -/
  port    : List Input
deriving DecidableEq, Repr

/-- Why the machine stops. -/
inductive Fault where
  /-- Raised by every step, and every meaning, of a block whose `refused` mark is set, unless the input is a reset: the
  block "accepts no operation and has no step" (60_exceptions.md R101). Safe: nothing can be proved of what follows. -/
  | halted (c : RefusalCode)
deriving DecidableEq, Repr

/-- Why the model gives no meaning. -/
inductive Refusal where
  /-- Raised by `exec` for an instruction that has no meaning yet. Safe. -/
  | notModelled (mnemonic : String)
  /-- Raised by `step` for a byte item that has no class (30_encoding.md R65). Safe: no host can hand one to the block. -/
  | noWireClass (w : BitVec 16)
  /-- Raised by `step` for a nibble item that is neither N.WAKE nor N.COMMIT4 (R62, R63). Safe, as above. -/
  | noNibbleItem (n : BitVec 8)
deriving DecidableEq, Repr

/-- The outcome of a step or of an instruction. -/
abbrev Result := Host.Outcome State Fault Refusal

/-- R33, R111. The spec gives the shadows no value (⊥) at reset: the stored zeros are a DESIGN CHOICE (log entry 4), and
`State.funcView`, `State.ctrlView` and `State.entryView` show ⊥ for them. The pin identifiers are log entry 5. -/
def State.reset : State where
  wiring  := Config.wiring
  cols    := Config.defaultColumns
  rows    := Config.defaultRows
  csize   := Config.defaultCharsize
  shFunc  := 0
  shCtrl  := 0
  shEntry := 0
  ready   := false
  refused := none
  queue   := []
  micro   := 0
  pins    := PinBank.reset
  trace   := []
  issued  := none
  port    := []

end Sys2Proof.Machine
end

