-- ==== Sys2Proof/Machine/Flags.lean ====
section
/-! DEFINITION. The flag bits of the shadow registers and the read-modify-write every toggling operation does
(10_state.md R22–R25). The bit positions are the spec's decision D12 (log entry 11). -/

namespace Sys2Proof.Machine

/-- R23: D, display on. -/
def maskD : Byte := 0x04
/-- R23: C, cursor on. -/
def maskC : Byte := 0x02
/-- R23: B, blink on. -/
def maskB : Byte := 0x01
/-- R24: ID, address increments. -/
def maskID : Byte := 0x02
/-- R24: S, display shifts on a write. -/
def maskS : Byte := 0x01

/-- R25: `sh.X | m`. -/
def setBits (sh m : Byte) : Byte := sh ||| m

/-- R25: `sh.X & ~m`. -/
def clearBits (sh m : Byte) : Byte := sh &&& ~~~m

/-- R83, R84: set when enabled, cleared when not. -/
def assignBits (en : Bool) (sh m : Byte) : Byte :=
  if en then setBits sh m else clearBits sh m

/-- R70: display on, cursor off, blink off. -/
def initialCtrl : Byte := 0x04
/-- R70, D13: left-to-right, no display shift. -/
def initialEntry : Byte := 0x02

/-- R71: `FUNC_FLAGS(rows, csize)`, DL = 0, N = (rows > 1), F = csize. -/
def funcFlags (rows : Byte) (csize : BitVec 1) : Byte :=
  (if rows > 1 then 1 <<< 3 else 0) ||| (csize.setWidth 8 <<< 2)

/-- R22, R33: `sh.func` as the spec shows it, ⊥ until INIT. -/
def State.funcView (s : State) : Option Byte := if s.ready then some s.shFunc else none
/-- R23, R33: `sh.ctrl` as the spec shows it, ⊥ until INIT. -/
def State.ctrlView (s : State) : Option Byte := if s.ready then some s.shCtrl else none
/-- R24, R33: `sh.entry` as the spec shows it, ⊥ until INIT. -/
def State.entryView (s : State) : Option Byte := if s.ready then some s.shEntry else none

end Sys2Proof.Machine
end

