-- ==== Sys2Proof/Machine/Operands.lean ====
section
/-! DEFINITION. How each byte an operation sends is assembled from state and operands (30_encoding.md R64). A byte to
send is a natural number; only its low eight bits reach the wire (44_glyph_cursor_print.md R96). -/

namespace Sys2Proof.Machine

/-- R55: entry-mode set, `0x04 | sh.entry`. -/
def entryByte (sh : Byte) : Nat := 0x04 ||| sh.toNat
/-- R56: display control, `0x08 | sh.ctrl`. -/
def ctrlByte (sh : Byte) : Nat := 0x08 ||| sh.toNat
/-- R58: function set, `0x20 | sh.func`. -/
def funcByte (sh : Byte) : Nat := 0x20 ||| sh.toNat
/-- R57: cursor/display shift, `0x10 | SC<<3 | RL<<2`. -/
def shiftByte (sc rl : Bool) : Nat := 0x10 ||| sc.toNat <<< 3 ||| rl.toNat <<< 2

/-- R53 -/
def clearByte : Nat := 0x01
/-- R54 -/
def homeByte : Nat := 0x02
/-- R62: the wake nibble. -/
def wakeNibble : Nat := 0x3
/-- R63: the mode-commit nibble. -/
def commitNibble : Nat := 0x2

/-- R92: the glyph slot, `index & 7`. -/
def glyphSlot (index : Byte) : Nat := index.toNat &&& 0x7
/-- R59, R92: set CGRAM address, `0x40 | (k << 3)`. -/
def cgramByte (index : Byte) : Nat := 0x40 ||| glyphSlot index <<< 3
/-- R60: set DDRAM address, `0x80 | addr`; exact, not yet reduced. -/
def ddramByte (addr : Nat) : Nat := 0x80 ||| addr

/-- R93: the line-base table, read with the current column count; no entry beyond row 3 (R94). -/
def lineBase (cols row : Byte) : Option Nat :=
  match row.toNat with
  | 0 => some 0x00
  | 1 => some 0x40
  | 2 => some (0x10 + cols.toNat)
  | 3 => some (0x40 + cols.toNat)
  | _ => none

/-- R94, R96: the exact DDRAM address of a column and row. -/
def cursorAddress (cols column row : Byte) : Option Nat :=
  match lineBase cols row with
  | some base => some (base + column.toNat)
  | none      => none

/-- R69: an override that is not supplied leaves the value in place. -/
def override {α : Type} (o : Option α) (v : α) : α := o.getD v

end Sys2Proof.Machine
end

