-- ==== Sys2Proof/Machine/Ops.lean ====
section
/-! DEFINITION. The operations every meaning is built from: the primitives NIBBLE and SEND (41_transfer.md R72, R73),
accepting an operation (00_scope.md R14), refusing one (60_exceptions.md R98–R101), performing an event
(10_state.md R28, R29) and reset (70_reset_and_hazards.md R111). -/

namespace Sys2Proof.Machine

/-! ## The primitives -/

/-- R72: NIBBLE(v), seven events; only `v[3:0]` is used. -/
def nibbleEvents (w : Wiring) (v : Nat) : List Event :=
  [ .wr w.d0 (v.testBit 0), .wr w.d1 (v.testBit 1), .wr w.d2 (v.testBit 2), .wr w.d3 (v.testBit 3),
    .wr w.e false, .wr w.e true, .wr w.e false ]

/-- R73: SEND(rs, b), sixteen events; the high nibble first, only `b[7:0]` reaches the wire. -/
def sendEvents (w : Wiring) (rs : Bool) (b : Nat) : List Event :=
  .wr w.rs rs :: (nibbleEvents w (b >>> 4) ++ (nibbleEvents w b ++ [.wait .cmd]))

/-- R95, R92: data bytes in order, one SEND each. -/
def dataEvents (w : Wiring) : List Byte → List Event
  | []      => []
  | b :: bs => sendEvents w true b.toNat ++ dataEvents w bs

/-! ## Accepting and refusing -/

/-- R14, R27: the expansion of an accepted operation joins the queue; the micro-sequence index starts again. -/
def State.accept (s : State) (es : List Event) : State :=
  { s with queue := s.queue ++ es, micro := 0 }

/-- R13: what an internal primitive appends joins the queue; it is no operation, so the index stays. -/
def State.emit (s : State) (es : List Event) : State :=
  { s with queue := s.queue ++ es }

/-- R101: refusal entry. The state is exactly the state before, plus the mark; there is no vector, no saved state and no
return but reset (R102). -/
def takeRefusal (c : RefusalCode) (s : State) : Result :=
  .next { s with refused := some c }

/-- R101: a refused block has no step. -/
def State.ifRunning (s : State) (r : Result) : Result :=
  match s.refused with
  | some c => .fault (.halted c)
  | none   => r

/-- R98 BUSY: no operation is accepted while the queue is not empty. -/
def State.ifIdle (s : State) (r : Result) : Result :=
  s.ifRunning (match s.queue with
    | []     => r
    | _ :: _ => takeRefusal .busy s)

/-- R99: an operation other than INIT needs `ready = 1`. -/
def State.ifReady (s : State) (r : Result) : Result :=
  s.ifIdle (if s.ready then r else takeRefusal .notReady s)

/-- R99: INIT needs `ready = 0`. -/
def State.ifUnready (s : State) (r : Result) : Result :=
  s.ifIdle (if s.ready then takeRefusal .reinit s else r)

/-! ## Shapes the operations share -/

/-- R81–R84: the control shadow becomes `v` and the whole display-control byte is sent. -/
def State.sendCtrl (s : State) (v : Byte) : State :=
  { s with shCtrl := v }.accept (sendEvents s.wiring false (ctrlByte v))

/-- R88–R91: the entry shadow becomes `v` and the whole entry-mode byte is sent. -/
def State.sendEntry (s : State) (v : Byte) : State :=
  { s with shEntry := v }.accept (sendEvents s.wiring false (entryByte v))

/-- R79, R80: a command that needs the long wait after SEND's own. -/
def longCommandEvents (w : Wiring) (b : Nat) : List Event :=
  sendEvents w false b ++ [.wait .long]

/-! ## The output port -/

def Level.ofBool (l : Bool) : Level := if l then .high else .low

/-- R29: what an event does to the pin it names; a wait names none. -/
def PinState.apply (p : Pin) (st : PinState) : Event → PinState
  | .cfg q  => if p = q then { st with mode := .output } else st
  | .wr q l => if p = q then { st with level := Level.ofBool l } else st
  | .wait _ => st

/-- R29, R106: what performing an event does to the owned pins. -/
def PinBank.apply (w : Wiring) (b : PinBank) (ev : Event) : PinBank where
  rs := b.rs.apply w.rs ev
  e  := b.e.apply w.e ev
  d0 := b.d0.apply w.d0 ev
  d1 := b.d1.apply w.d1 ev
  d2 := b.d2.apply w.d2 ev
  d3 := b.d3.apply w.d3 ev

/-- R28: one drain step removes the head event, performs it and appends it to the trace. -/
def State.drain (s : State) : State :=
  match s.queue with
  | []      => s
  | ev :: q =>
    { s with queue := q, micro := s.micro + 1, pins := s.pins.apply s.wiring ev, trace := s.trace ++ [ev] }

/-! ## Reset -/

/-- R33, R111: reset is construction with the same pins; it performs no event and discards the queue. The host's later
inputs are not the block's and stay (log entry 2). -/
def State.construct (s : State) (rest : List Input) : State :=
  { State.reset with wiring := s.wiring, port := rest }

end Sys2Proof.Machine
end

