-- ==== Sys2Proof/Machine/DisplayControl.lean ====
section
/-! DEFINITION. CLEAR, HOME, ON, OFF, CURSOR and BLINK (42_display_control.md R79–R84). -/

namespace Sys2Proof.Machine

/-- R79. -/
def execClear (s : State) : Result :=
  s.ifReady (.next (s.accept (longCommandEvents s.wiring clearByte)))

/-- R80. -/
def execHome (s : State) : Result :=
  s.ifReady (.next (s.accept (longCommandEvents s.wiring homeByte)))

/-- R81. -/
def execOn (s : State) : Result :=
  s.ifReady (.next (s.sendCtrl (setBits s.shCtrl maskD)))

/-- R82. -/
def execOff (s : State) : Result :=
  s.ifReady (.next (s.sendCtrl (clearBits s.shCtrl maskD)))

/-- R83. -/
def execCursor (en : Bool) (s : State) : Result :=
  s.ifReady (.next (s.sendCtrl (assignBits en s.shCtrl maskC)))

/-- R84. -/
def execBlink (en : Bool) (s : State) : Result :=
  s.ifReady (.next (s.sendCtrl (assignBits en s.shCtrl maskB)))

end Sys2Proof.Machine
end

