-- ==== Sys2Proof/Machine/GlyphCursorPrint.lean ====
section
/-! DEFINITION. DEFGLYPH, SETCUR and PRINT (44_glyph_cursor_print.md R92–R96). -/

namespace Sys2Proof.Machine

/-- R92: the CGRAM address, the eight rows unmasked, then DDRAM address 0. -/
def glyphEvents (w : Wiring) (index : Byte) (bitmap : Glyph) : List Event :=
  sendEvents w false (cgramByte index) ++ (dataEvents w bitmap.rows ++ sendEvents w false (ddramByte 0))

/-- R92. -/
def execDefglyph (index : Byte) (bitmap : Glyph) (s : State) : Result :=
  s.ifReady (.next (s.accept (glyphEvents s.wiring index bitmap)))

/-- R94: a row beyond the table is refused ROW_RANGE (D17). -/
def execSetcur (column row : Byte) (s : State) : Result :=
  s.ifReady (match cursorAddress s.cols column row with
    | some addr => .next (s.accept (sendEvents s.wiring false (ddramByte addr)))
    | none      => takeRefusal .rowRange s)

/-- R95. A text longer than LEN can say is no payload of any PRINT word, so it is refused BAD_PAYLOAD before readiness is
asked (R49, R98, R100). DEDUCED (log entry 15), safe. -/
def execPrint (text : List Byte) (s : State) : Result :=
  s.ifIdle (if text.length ≤ Config.maxPayload
    then s.ifReady (.next (s.accept (dataEvents s.wiring text)))
    else takeRefusal .badPayload s)

end Sys2Proof.Machine
end

