-- ==== Sys2Proof/Machine/Initialize.lean ====
section
/-! DEFINITION. INIT (40_initialize.md R69–R71). -/

namespace Sys2Proof.Machine

/-- R70: the six pins become outputs, in the order RS, E, D0–D3 (D4). -/
def configureEvents (w : Wiring) : List Event :=
  [.cfg w.rs, .cfg w.e, .cfg w.d0, .cfg w.d1, .cfg w.d2, .cfg w.d3]

/-- R70, R118: RS and E low (D5), then the four single nibbles, each followed by its wait. -/
def wakeEvents (w : Wiring) : List Event :=
  [.wr w.rs false, .wr w.e false]
    ++ (nibbleEvents w wakeNibble ++ .wait .wake1
    :: (nibbleEvents w wakeNibble ++ .wait .wake2
    :: (nibbleEvents w wakeNibble ++ .wait .wake3
    :: (nibbleEvents w commitNibble ++ [.wait .commit]))))

/-- R70: INIT's whole expansion, given the function-set flags. -/
def initEvents (w : Wiring) (func : Byte) : List Event :=
  configureEvents w ++ (wakeEvents w
    ++ (sendEvents w false (funcByte func)
    ++ (sendEvents w false (ctrlByte initialCtrl)
    ++ (sendEvents w false (entryByte initialEntry)
    ++ longCommandEvents w clearByte))))

/-- R69: the overrides the host supplied. -/
def State.withGeometry (s : State) (cols rows : Option Byte) (csize : Option (BitVec 1)) : State :=
  { s with cols := override cols s.cols, rows := override rows s.rows, csize := override csize s.csize }

/-- R70: the shadows' first values, and `ready`. -/
def State.establish (s : State) : State :=
  { s with
    shFunc := funcFlags s.rows s.csize, shCtrl := initialCtrl, shEntry := initialEntry, ready := true }

/-- R70. -/
def execInit (cols rows : Option Byte) (csize : Option (BitVec 1)) (s : State) : Result :=
  let t := (s.withGeometry cols rows csize).establish
  s.ifUnready (.next (t.accept (initEvents t.wiring t.shFunc)))

end Sys2Proof.Machine
end

