-- ==== Sys2Proof/Machine/ShiftEntry.lean ====
section
/-! DEFINITION. SCRL, SCRR, LTR, RTL, JUSTR and JUSTL (43_shift_entry.md R86–R91). -/

namespace Sys2Proof.Machine

/-- R86: no shadow, no shift count. -/
def execScrl (s : State) : Result :=
  s.ifReady (.next (s.accept (sendEvents s.wiring false (shiftByte true false))))

/-- R87. -/
def execScrr (s : State) : Result :=
  s.ifReady (.next (s.accept (sendEvents s.wiring false (shiftByte true true))))

/-- R88. -/
def execLtr (s : State) : Result :=
  s.ifReady (.next (s.sendEntry (setBits s.shEntry maskID)))

/-- R89. -/
def execRtl (s : State) : Result :=
  s.ifReady (.next (s.sendEntry (clearBits s.shEntry maskID)))

/-- R90. -/
def execJustr (s : State) : Result :=
  s.ifReady (.next (s.sendEntry (setBits s.shEntry maskS)))

/-- R91. -/
def execJustl (s : State) : Result :=
  s.ifReady (.next (s.sendEntry (clearBits s.shEntry maskS)))

end Sys2Proof.Machine
end

