-- ==== Sys2Proof/Machine/Transfer.lean ====
section
/-! DEFINITION. WRBYTE and CMD (41_transfer.md R76, R77). -/

namespace Sys2Proof.Machine

/-- R76. -/
def execWrbyte (value : Byte) (s : State) : Result :=
  s.ifReady (.next (s.accept (sendEvents s.wiring true value.toNat)))

/-- R77: no shadow is updated and no long wait added, whatever the code (D25). -/
def execCmd (code : Byte) (s : State) : Result :=
  s.ifReady (.next (s.accept (sendEvents s.wiring false code.toNat)))

end Sys2Proof.Machine
end

