-- ==== Sys2Proof/Machine/Wire.lean ====
section
/-! DEFINITION. The wire items of the opcode table (30_encoding.md R52–R63), each as the run of the primitive that
produces it: a byte item is the SEND, a nibble item the NIBBLE. They are the block's microcode, no operations: they are
neither BUSY nor NOT_READY (41_transfer.md; log entries 6 and 7). -/

namespace Sys2Proof.Machine

/-- R73: deliver the byte item `rs:b`. -/
def State.deliver (s : State) (rs : Bool) (b : Nat) : Result :=
  s.ifRunning (.next (s.emit (sendEvents s.wiring rs b)))

/-- R72: deliver the nibble `v` at the level RS has. -/
def State.deliverNibble (s : State) (v : Nat) : Result :=
  s.ifRunning (.next (s.emit (nibbleEvents s.wiring v)))

/-- R53. -/
def execWClear (s : State) : Result := s.deliver false clearByte

/-- R54: `0x02`, with the bit 0 the controller ignores as it is given. -/
def execWHome (dc : BitVec 1) (s : State) : Result := s.deliver false (homeByte ||| dc.toNat)

/-- R55: `0x04 | ID<<1 | S`. -/
def execWEntry (id sh : Bool) (s : State) : Result :=
  s.deliver false (0x04 ||| id.toNat <<< 1 ||| sh.toNat)

/-- R56: `0x08 | D<<2 | C<<1 | B`. -/
def execWDispctl (d c b : Bool) (s : State) : Result :=
  s.deliver false (0x08 ||| d.toNat <<< 2 ||| c.toNat <<< 1 ||| b.toNat)

/-- R57: `0x10 | SC<<3 | RL<<2`, with the bits 1:0 the controller ignores as they are given. -/
def execWShift (sc rl : Bool) (dc : BitVec 2) (s : State) : Result :=
  s.deliver false (shiftByte sc rl ||| dc.toNat)

/-- R58: `0x20 | DL<<4 | N<<3 | F<<2`, with the bits 1:0 the controller ignores as they are given. -/
def execWFunc (dl n f : Bool) (dc : BitVec 2) (s : State) : Result :=
  s.deliver false (0x20 ||| dl.toNat <<< 4 ||| n.toNat <<< 3 ||| f.toNat <<< 2 ||| dc.toNat)

/-- R59: `0x40 | addr`. -/
def execWCgram (addr : BitVec 6) (s : State) : Result := s.deliver false (0x40 ||| addr.toNat)

/-- R60: `0x80 | addr`. -/
def execWDdram (addr : BitVec 7) (s : State) : Result := s.deliver false (ddramByte addr.toNat)

/-- R61. -/
def execWData (v : Byte) (s : State) : Result := s.deliver true v.toNat

/-- R62. -/
def execNWake (s : State) : Result := s.deliverNibble wakeNibble

/-- R63. -/
def execNCommit4 (s : State) : Result := s.deliverNibble commitNibble

end Sys2Proof.Machine
end

