-- ==== Sys2Proof/Machine/Dispatch.lean ====
section
/-! DEFINITION. One arm per instruction. -/

namespace Sys2Proof.Machine

def exec (i : Instr) (s : State) : Host.Outcome State Fault Refusal :=
  match i with
  -- operations (30_encoding.md R50)
  | .init cols rows csize => Sys2Proof.Machine.execInit cols rows csize s
  | .wrbyte value => Sys2Proof.Machine.execWrbyte value s
  | .cmd code => Sys2Proof.Machine.execCmd code s
  | .clear => Sys2Proof.Machine.execClear s
  | .home => Sys2Proof.Machine.execHome s
  | .on => Sys2Proof.Machine.execOn s
  | .off => Sys2Proof.Machine.execOff s
  | .cursor en => Sys2Proof.Machine.execCursor en s
  | .blink en => Sys2Proof.Machine.execBlink en s
  | .scrl => Sys2Proof.Machine.execScrl s
  | .scrr => Sys2Proof.Machine.execScrr s
  | .ltr => Sys2Proof.Machine.execLtr s
  | .rtl => Sys2Proof.Machine.execRtl s
  | .justr => Sys2Proof.Machine.execJustr s
  | .justl => Sys2Proof.Machine.execJustl s
  | .defglyph index bitmap => Sys2Proof.Machine.execDefglyph index bitmap s
  | .setcur column row => Sys2Proof.Machine.execSetcur column row s
  | .print text => Sys2Proof.Machine.execPrint text s
  -- wire items (R53–R63)
  | .wClear => Sys2Proof.Machine.execWClear s
  | .wHome dc => Sys2Proof.Machine.execWHome dc s
  | .wEntry id sh => Sys2Proof.Machine.execWEntry id sh s
  | .wDispctl d c b => Sys2Proof.Machine.execWDispctl d c b s
  | .wShift sc rl dc => Sys2Proof.Machine.execWShift sc rl dc s
  | .wFunc dl n f dc => Sys2Proof.Machine.execWFunc dl n f dc s
  | .wCgram addr => Sys2Proof.Machine.execWCgram addr s
  | .wDdram addr => Sys2Proof.Machine.execWDdram addr s
  | .wData v => Sys2Proof.Machine.execWData v s
  | .nWake => Sys2Proof.Machine.execNWake s
  | .nCommit4 => Sys2Proof.Machine.execNCommit4 s

end Sys2Proof.Machine
end

