-- ==== Sys2Proof/Machine/Port.lean ====
section
/-! DEFINITION. The host's side of a step: which input reaches the block now, and what taking it leaves
(60_exceptions.md R98, R101, R108; 70_reset_and_hazards.md R111, R124; log entries 2 and 3). -/

namespace Sys2Proof.Machine

/-- What the next step is about. -/
inductive Action where
  /-- a refused block has no step (R101) -/
  | halt (c : RefusalCode)
  /-- reset (R111); the host's inputs that are left -/
  | construct (rest : List Input)
  /-- the host's next input reaches the block; the inputs that are left -/
  | present (e : Encoded) (rest : List Input)
  /-- no input arrives: one drain step, or nothing where the queue is empty; the inputs as they then stand -/
  | advance (inputs : List Input)
deriving DecidableEq, Repr

/-- R108: a blocking call waits for the queue to drain; an overlapping input waits only for its own count. -/
def Arrival.isNow (a : Arrival) (queue : List Event) : Bool :=
  match a with
  | .drained  => queue.isEmpty
  | .after n  => n == 0

/-- One step less to wait. -/
def Arrival.tick : Arrival → Arrival
  | .drained => .drained
  | .after n => .after (n - 1)

/-- One step passes for the host's next input. -/
def tickInputs : List Input → List Input
  | []        => []
  | x :: rest => { x with arrival := x.arrival.tick } :: rest

/-- Which action the step takes. A reset reaches a refused block at once: the block has no step to wait for (R102). -/
def schedule (s : State) : Action :=
  match s.port, s.refused with
  | [], some c => .halt c
  | [], none   => .advance []
  | ⟨_, .reset⟩ :: rest, some _ => .construct rest
  | ⟨a, .reset⟩ :: rest, none =>
    if a.isNow s.queue then .construct rest else .advance (tickInputs s.port)
  | ⟨_, .encoded _⟩ :: _, some c => .halt c
  | ⟨a, .encoded e⟩ :: rest, none =>
    if a.isNow s.queue then .present e rest else .advance (tickInputs s.port)

/-- The input leaves the port and stays available as the last issued one (R98). -/
def State.take (s : State) (e : Encoded) (rest : List Input) : State :=
  { s with port := rest, issued := some e }

/-- R28: a step in which no input arrives. -/
def State.advance (s : State) (inputs : List Input) : State :=
  { s.drain with port := inputs }

/-- R98, R100: BUSY outranks every other cause, for an operation. -/
def isBusy (e : Encoded) (s : State) : Bool :=
  match e with
  | .op _ _   => !s.queue.isEmpty
  | .wire _   => false
  | .nibble _ => false

/-- The instruction an input stands for, or why it stands for none. -/
def fetch (e : Encoded) (s : State) : Except Reject Instr :=
  if isBusy e s then .error (.code .busy) else decode e

/-- What a rejected input does: a refused operation takes the refusal (R101); a byte or nibble item that is no row of the
opcode table has no meaning (log entry 8). -/
def takeReject (r : Reject) (s : State) : Result :=
  match r with
  | .code c         => takeRefusal c s
  | .noWireClass w  => .refused (.noWireClass w)
  | .noNibbleItem n => .refused (.noNibbleItem n)

/-- The host's inputs with one more in front that reaches the block at the very next step. -/
def State.withInput (s : State) (e : Encoded) : State :=
  { s with port := ⟨.after 0, .encoded e⟩ :: s.port }

/-- R124: a host program, each operation issued after the previous one's queue has drained. -/
def hostProgram (ops : List Encoded) : List Input :=
  ops.map fun e => ⟨.drained, .encoded e⟩

/-- R124: the host has issued its last operation, none was refused, and the queue is empty. -/
def State.endsSuccessfully (s : State) : Bool :=
  s.port.isEmpty && s.refused.isNone && s.queue.isEmpty

/-- R124: some operation was refused. -/
def State.endsRefused (s : State) : Bool := s.refused.isSome

end Sys2Proof.Machine
end

