-- ==== Sys2Proof/Machine/Step.lean ====
section
/-! DEFINITION. One step of the machine: an input of the host reaches the block, or one event is performed
(10_state.md R28). -/

namespace Sys2Proof.Machine

/-- An input reaches the block: it is refused, or the instruction it stands for runs. -/
def State.present (s : State) (e : Encoded) (rest : List Input) : Host.Outcome State Fault Refusal :=
  match fetch e (s.take e rest) with
  | .ok i    => exec i (s.take e rest)
  | .error r => takeReject r (s.take e rest)

def step (s : State) : Host.Outcome State Fault Refusal :=
  match schedule s with
  | .halt c         => .fault (.halted c)
  | .construct rest => .next (s.construct rest)
  | .present e rest => s.present e rest
  | .advance inputs => .next (s.advance inputs)

/-- The host presents the instruction whose bits, as the opcode table numbers them, are `w`, at the very next step,
whatever the queue holds. Nothing else changes (log entry 2). -/
def State.withFetchWord (s : State) (nbits w : Nat) : State :=
  match tableWord nbits w with
  | some e => s.withInput e
  | none   => s

end Sys2Proof.Machine
end

