-- ==== Sys2Proof/Machine/Assembler.lean ====
section
/-! DEFINITION. The assembly syntax and the pseudo-instructions of the operation port (30_encoding.md R67, R68): one line
of text to the operations it stands for. It is the host's tool; no step reads it. -/

namespace Sys2Proof.Machine

/-! ## Pseudo-instructions (R68) -/

/-- R68, D20: the code units of a text as payload bytes, each its low eight bits. -/
def textBytes (units : List Nat) : List Byte := units.map (BitVec.ofNat 8)

/-- R68: a text as consecutive PRINTs of at most 65535 bytes each; `fuel` bounds their number. -/
def printChunks : Nat → List Byte → List Instr
  | 0, _ => []
  | fuel + 1, text =>
    if text.length ≤ Config.maxPayload then [.print text]
    else .print (text.take Config.maxPayload) :: printChunks fuel (text.drop Config.maxPayload)

/-- R68: `PRINT "<text>"`. -/
def printText (units : List Nat) : List Instr := printChunks (units.length + 1) (textBytes units)

/-! ## Lines of text (R67) -/

inductive Token where
  | word (s : List Char)
  | num (n : Nat)
  | comma
  | equals
  | lbracket
  | rbracket
  | text (cs : List Char)
deriving DecidableEq, Repr

/-- The value of a digit in a base, if it is one. -/
def digit? (base : Nat) (c : Char) : Option Nat :=
  let v :=
    if '0' ≤ c ∧ c ≤ '9' then c.toNat - '0'.toNat
    else if 'a' ≤ c ∧ c ≤ 'f' then c.toNat - 'a'.toNat + 10
    else if 'A' ≤ c ∧ c ≤ 'F' then c.toNat - 'A'.toNat + 10
    else base
  if v < base then some v else none

/-- Digits in a base, most significant first. -/
def digits? (base : Nat) : List Char → Nat → Option Nat
  | [], acc => some acc
  | c :: cs, acc =>
    match digit? base c with
    | some d => digits? base cs (acc * base + d)
    | none   => none

/-- R67: a number is decimal, `0x` hexadecimal or `0b` binary. -/
def number? : List Char → Option Nat
  | [] => none
  | '0' :: 'x' :: c :: cs => digits? 16 (c :: cs) 0
  | '0' :: 'b' :: c :: cs => digits? 2 (c :: cs) 0
  | cs => digits? 10 cs 0

def isWordChar (c : Char) : Bool := c.isAlphanum

/-- The tokens of a line up to its comment; none where a character or a number is none of the syntax. -/
def tokens : Nat → List Char → Option (List Token)
  | 0, _ => some []
  | _ + 1, [] => some []
  | fuel + 1, c :: cs =>
    if c = ';' then some []
    else if c = ' ' ∨ c = '\t' then tokens fuel cs
    else if c = ',' then (tokens fuel cs).map (Token.comma :: ·)
    else if c = '=' then (tokens fuel cs).map (Token.equals :: ·)
    else if c = '[' then (tokens fuel cs).map (Token.lbracket :: ·)
    else if c = ']' then (tokens fuel cs).map (Token.rbracket :: ·)
    else if c = '"' then
      match cs.dropWhile (· ≠ '"') with
      | _ :: rest => (tokens fuel rest).map (Token.text (cs.takeWhile (· ≠ '"')) :: ·)
      | [] => none
    else if c.isDigit then
      match number? ((c :: cs).takeWhile isWordChar) with
      | some n => (tokens fuel ((c :: cs).dropWhile isWordChar)).map (Token.num n :: ·)
      | none   => none
    else if c.isAlpha then
      (tokens fuel ((c :: cs).dropWhile isWordChar)).map (Token.word ((c :: cs).takeWhile isWordChar) :: ·)
    else none

/-- R67: the source's method names are synonyms of the mnemonics. -/
def synonyms : List (String × String) :=
  [ ("initialize", "INIT"), ("begin", "INIT"), ("writeByte", "WRBYTE"), ("command", "CMD"), ("clear", "CLEAR"),
    ("home", "HOME"), ("on", "ON"), ("off", "OFF"), ("cursor", "CURSOR"), ("blink", "BLINK"),
    ("scrollLeft", "SCRL"), ("scrollRight", "SCRR"), ("leftToRight", "LTR"), ("rightToLeft", "RTL"),
    ("justifyRight", "JUSTR"), ("justifyLeft", "JUSTL"), ("defineGlyph", "DEFGLYPH"), ("createChar", "DEFGLYPH"),
    ("setCursor", "SETCUR"), ("print", "PRINT") ]

/-- The mnemonic a name stands for. -/
def canonical (name : String) : String := (synonyms.lookup name).getD name

/-- A number that fits an 8-bit operand. -/
def byte? (n : Nat) : Option Byte := if n < 256 then some (BitVec.ofNat 8 n) else none

/-- The keyword operands of INIT. -/
structure InitOperands where
  cols  : Option Byte
  rows  : Option Byte
  csize : Option (BitVec 1)
deriving DecidableEq, Repr

/-- R67: a keyword that is omitted leaves its presence bit 0; the keywords stand in the order cols, rows, csize. -/
def initOperands (o : InitOperands) : List Token → Option InitOperands
  | [] => some o
  | [.word k, .equals, .num n] => assign o k n
  | .word k :: .equals :: .num n :: .comma :: t :: rest =>
    match assign o k n with
    | some o' => initOperands o' (t :: rest)
    | none    => none
  | _ => none
where
  /-- One keyword, once, and none of an earlier place after it. -/
  assign (o : InitOperands) (k : List Char) (n : Nat) : Option InitOperands :=
    if k = "cols".toList ∧ o = ⟨none, none, none⟩ then (byte? n).map fun b => { o with cols := some b }
    else if k = "rows".toList ∧ o.rows = none ∧ o.csize = none then (byte? n).map fun b => { o with rows := some b }
    else if k = "csize".toList ∧ o.csize = none ∧ n < 2 then some { o with csize := some (BitVec.ofNat 1 n) }
    else none

/-- Numbers that fit a byte, separated by commas. -/
def byteList : List Token → Option (List Byte)
  | [.num n] => (byte? n).map (fun b => [b])
  | .num n :: .comma :: rest =>
    match byte? n, byteList rest with
    | some b, some bs => some (b :: bs)
    | _, _ => none
  | _ => none

/-- R67, R68: `CURSOR` and `BLINK` with no operand are the operand 1. -/
def enable? : List Token → Option Bool
  | []       => some true
  | [.num 0] => some false
  | [.num 1] => some true
  | _        => none

/-- An operation without operands. -/
def bare (i : Instr) : List Token → Option (List Instr)
  | []     => some [i]
  | _ :: _ => none

/-- The operations a mnemonic and its operands stand for. -/
def assembleOp (name : String) (ts : List Token) : Option (List Instr) :=
  if name = "INIT" then (initOperands ⟨none, none, none⟩ ts).map fun o => [.init o.cols o.rows o.csize]
  else if name = "WRBYTE" then
    match ts with
    | [.num n] => (byte? n).map fun b => [.wrbyte b]
    | _ => none
  else if name = "CMD" then
    match ts with
    | [.num n] => (byte? n).map fun b => [.cmd b]
    | _ => none
  else if name = "CLEAR" then bare .clear ts
  else if name = "HOME" then bare .home ts
  else if name = "ON" then bare .on ts
  else if name = "OFF" then bare .off ts
  else if name = "CURSOR" then (enable? ts).map fun en => [.cursor en]
  else if name = "BLINK" then (enable? ts).map fun en => [.blink en]
  else if name = "SCRL" then bare .scrl ts
  else if name = "SCRR" then bare .scrr ts
  else if name = "LTR" then bare .ltr ts
  else if name = "RTL" then bare .rtl ts
  else if name = "JUSTR" then bare .justr ts
  else if name = "JUSTL" then bare .justl ts
  else if name = "DEFGLYPH" then
    match ts with
    | .num index :: .comma :: .lbracket :: rest =>
      if rest.getLast? = some .rbracket then
        match byte? index, (byteList rest.dropLast).bind glyphOf with
        | some i, some g => some [.defglyph i g]
        | _, _ => none
      else none
    | _ => none
  else if name = "SETCUR" then
    match ts with
    | [.num column, .comma, .num row] =>
      match byte? column with
      | some c => if row < 4 then some [.setcur c (BitVec.ofNat 8 row)] else none
      | none => none
    | _ => none
  else if name = "PRINT" then
    match ts with
    | [.text cs] => some (printText (cs.map Char.toNat))
    | _ => none
  else none

/-- R67: one line of assembly; an empty line stands for no operation. -/
def assemble (line : String) : Option (List Instr) :=
  match tokens (line.toList.length + 1) line.toList with
  | some (.word name :: ts) => assembleOp (canonical (String.ofList name)) ts
  | some [] => some []
  | _ => none

end Sys2Proof.Machine
end

