-- ==== Sys2Proof/Machine/Observe.lean ====
section
/-! DEFINITION. What an observer reads from a trace (41_transfer.md R74, R75; 60_exceptions.md R109; 70_reset_and_hazards.md
R123): the latches, the wire items they deliver, and the waits. No step reads any of it. -/

namespace Sys2Proof.Machine

/-! ## Latches -/

/-- A level as a bit, where it is known. -/
def Level.bit? : Level → Option (BitVec 1)
  | .low     => some 0
  | .high    => some 1
  | .unknown => none

/-- R74: `lvl[RS] : (lvl[D3] ++ lvl[D2] ++ lvl[D1] ++ lvl[D0])`, none where a level is ⊥. -/
def PinBank.sample (b : PinBank) : Option (BitVec 5) :=
  match b.rs.level.bit?, b.d3.level.bit?, b.d2.level.bit?, b.d1.level.bit?, b.d0.level.bit? with
  | some rs, some d3, some d2, some d1, some d0 => some (rs ++ d3 ++ d2 ++ d1 ++ d0)
  | _, _, _, _, _ => none

/-- R74: performing `Wr(E_PIN, 0)` when `lvl[E_PIN] = 1` is a latch. -/
def isLatch (w : Wiring) (b : PinBank) (ev : Event) : Bool :=
  decide (ev = .wr w.e false) && decide (b.e.level = .high)

/-- The pins after a list of events, from a given state of the pins. -/
def replay (w : Wiring) (b : PinBank) : List Event → PinBank
  | []       => b
  | ev :: es => replay w (b.apply w ev) es

/-- R74: the nibble items a list of events latches, from a given state of the pins. -/
def latchesFrom (w : Wiring) (b : PinBank) : List Event → List (Option (BitVec 5))
  | []       => []
  | ev :: es => (if isLatch w b ev then [b.sample] else []) ++ latchesFrom w (b.apply w ev) es

/-- R74: `latches(trace)`, since reset. -/
def latches (w : Wiring) (es : List Event) : List (Option (BitVec 5)) := latchesFrom w PinBank.reset es

/-! ## Wire items -/

/-- R52, R75: what the latches of a trace deliver. `undetermined` is a latch with an unknown level, or a pair whose RS
levels differ: R74 and R75 say neither occurs. -/
inductive WireItem where
  | nibble (n : BitVec 5)
  | byte (b : BitVec 9)
  | undetermined
deriving DecidableEq, Repr

/-- R75: one of the first four latches. -/
def nibbleItem : Option (BitVec 5) → WireItem
  | some n => .nibble n
  | none   => .undetermined

/-- R75: the pair `(rs:nh, rs:nl)` is the byte item `rs:(nh << 4 | nl)`. -/
def byteItem (high low : Option (BitVec 5)) : WireItem :=
  match high, low with
  | some h, some l => if h.getLsbD 4 = l.getLsbD 4 then .byte (h ++ l.extractLsb' 0 4) else .undetermined
  | _, _ => .undetermined

/-- R75: from the fifth latch on, latches pair; a latch whose partner has not come delivers nothing yet. -/
def pairItems : List (Option (BitVec 5)) → List WireItem
  | high :: low :: rest => byteItem high low :: pairItems rest
  | [_] => []
  | []  => []

/-- R75: the wire items of the latches since reset. -/
def itemsOfLatches (ls : List (Option (BitVec 5))) : List WireItem :=
  (ls.take 4).map nibbleItem ++ pairItems (ls.drop 4)

/-- R75, R109: the wire items a trace delivers. -/
def wireItems (w : Wiring) (es : List Event) : List WireItem := itemsOfLatches (latches w es)

/-- R65: the row of the opcode table a wire item is; `0:0x00` has none. -/
def WireItem.instr : WireItem → Option Instr
  | .nibble n     => decodeNibble n
  | .byte b       => decodeWire b
  | .undetermined => none

/-- The byte item `rs:(b mod 256)` (R96). -/
def sentItem (rs : Bool) (b : Nat) : WireItem := .byte (bit rs ++ BitVec.ofNat 8 b)

/-- R64: the wire items an operation delivers, from the state it finds; the operands of a refused SETCUR deliver none. -/
def itemsSent (i : Instr) (s : State) : List WireItem :=
  match i with
  | .init _ rows csize =>
    [.nibble 0x3, .nibble 0x3, .nibble 0x3, .nibble 0x2,
     sentItem false (funcByte (funcFlags (override rows s.rows) (override csize s.csize))),
     sentItem false 0x0C, sentItem false 0x06, sentItem false 0x01]
  | .wrbyte v    => [sentItem true v.toNat]
  | .cmd code    => [sentItem false code.toNat]
  | .clear       => [sentItem false 0x01]
  | .home        => [sentItem false 0x02]
  | .on          => [sentItem false (ctrlByte (setBits s.shCtrl maskD))]
  | .off         => [sentItem false (ctrlByte (clearBits s.shCtrl maskD))]
  | .cursor en   => [sentItem false (ctrlByte (assignBits en s.shCtrl maskC))]
  | .blink en    => [sentItem false (ctrlByte (assignBits en s.shCtrl maskB))]
  | .scrl        => [sentItem false 0x18]
  | .scrr        => [sentItem false 0x1C]
  | .ltr         => [sentItem false (entryByte (setBits s.shEntry maskID))]
  | .rtl         => [sentItem false (entryByte (clearBits s.shEntry maskID))]
  | .justr       => [sentItem false (entryByte (setBits s.shEntry maskS))]
  | .justl       => [sentItem false (entryByte (clearBits s.shEntry maskS))]
  | .defglyph index bitmap =>
    sentItem false (cgramByte index) :: (bitmap.rows.map fun r => sentItem true r.toNat) ++ [sentItem false 0x80]
  | .setcur column row =>
    match cursorAddress s.cols column row with
    | some addr => [sentItem false (ddramByte addr)]
    | none      => []
  | .print text  => text.map fun v => sentItem true v.toNat
  | .wClear         => [sentItem false clearByte]
  | .wHome dc       => [sentItem false (homeByte ||| dc.toNat)]
  | .wEntry id sh   => [sentItem false (0x04 ||| id.toNat <<< 1 ||| sh.toNat)]
  | .wDispctl d c b => [sentItem false (0x08 ||| d.toNat <<< 2 ||| c.toNat <<< 1 ||| b.toNat)]
  | .wShift sc rl dc => [sentItem false (shiftByte sc rl ||| dc.toNat)]
  | .wFunc dl n f dc =>
    [sentItem false (0x20 ||| dl.toNat <<< 4 ||| n.toNat <<< 3 ||| f.toNat <<< 2 ||| dc.toNat)]
  | .wCgram addr    => [sentItem false (0x40 ||| addr.toNat)]
  | .wDdram addr    => [sentItem false (ddramByte addr.toNat)]
  | .wData v        => [sentItem true v.toNat]
  | .nWake          => [.nibble 0x3]
  | .nCommit4       => [.nibble 0x2]

/-! ## The whole of what was and will be performed -/

/-- Every event the block has performed or will perform, in order (20_memory.md R44). -/
def State.history (s : State) : List Event := s.trace ++ s.queue

/-- The block when its queue has drained (R28): every pending event performed. -/
def State.drained (s : State) : State :=
  { s with
    queue := [], micro := s.micro + s.queue.length, pins := replay s.wiring s.pins s.queue,
    trace := s.trace ++ s.queue }

/-! ## What was last sent to a register of the controller -/

/-- The display-control flags a wire item carries, if it is W.DISPCTL (R56). -/
def WireItem.ctrlFlags (x : WireItem) : Option Byte :=
  match x.instr with
  | some (.wDispctl d c b) => some (0#5 ++ bit d ++ bit c ++ bit b)
  | _ => none

/-- The entry-mode flags a wire item carries, if it is W.ENTRY (R55). -/
def WireItem.entryFlags (x : WireItem) : Option Byte :=
  match x.instr with
  | some (.wEntry id s) => some (0#6 ++ bit id ++ bit s)
  | _ => none

/-- The function-set flags a wire item carries, if it is W.FUNC (R58). -/
def WireItem.funcSetFlags (x : WireItem) : Option Byte :=
  match x.instr with
  | some (.wFunc dl n f _) => some (0#3 ++ bit dl ++ bit n ++ bit f ++ 0#2)
  | _ => none

/-- The last value a list of wire items sent to a register. -/
def lastSent (flags : WireItem → Option Byte) (items : List WireItem) : Option Byte :=
  (items.filterMap flags).getLast?

/-- R32: each shadow register holds what was last sent to the register it mirrors, counting what is still queued. -/
abbrev State.Mirrored (s : State) : Prop :=
  s.ready = true →
    lastSent WireItem.funcSetFlags (wireItems s.wiring s.history) = some s.shFunc ∧
    lastSent WireItem.ctrlFlags (wireItems s.wiring s.history) = some s.shCtrl ∧
    lastSent WireItem.entryFlags (wireItems s.wiring s.history) = some s.shEntry

/-! ## Waits -/

/-- The delays a list of events waits, in order (R123). -/
def waits (es : List Event) : List Delay :=
  es.filterMap fun
    | .wait t => some t
    | .cfg _  => none
    | .wr _ _ => none

/-- R123: the minimum time of a list of events is the sum of its waits. -/
def waitTotal (t : Timing) (es : List Event) : Nat := ((waits es).map t.ms).sum

end Sys2Proof.Machine
end

