-- ==== Sys2Proof/Machine/Run.lean ====
section
/-! DEFINITION. Operations one after another, each after the previous one's queue has drained
(70_reset_and_hazards.md R124), written over `exec` alone. -/

namespace Sys2Proof.Machine

/-- R124: the block after a list of operations; none where one is refused or has no step. -/
def runOps : List Instr → State → Option State
  | [], s => some s
  | i :: is, s =>
    match exec i s with
    | .next t    => if t.refused.isSome then none else runOps is t.drained
    | .fault _   => none
    | .refused _ => none

end Sys2Proof.Machine
end

