-- ==== Sys2Proof/Safety.lean ====
section
/-! DEFINITION. What claims about the sequencer are made of: the invariant of every run a host can cause, and the end of
a run (70_reset_and_hazards.md R124). -/

namespace Sys2Proof.Machine

/-- An input a host can cause: an operation or a reset, not an item handed to the block's own primitives (R72). -/
def Input.isHosts (x : Input) : Bool :=
  match x.request with
  | .reset                 => true
  | .encoded (.op _ _)     => true
  | .encoded (.wire _)     => false
  | .encoded (.nibble _)   => false

/-- Every pin is an output (10_state.md R29). -/
def PinBank.allOutput (b : PinBank) : Bool :=
  [b.rs, b.e, b.d0, b.d1, b.d2, b.d3].all fun p => decide (p.mode = .output)

/-- E is low and every line a latch samples has a known level (41_transfer.md R72, R74). -/
def PinBank.settled (b : PinBank) : Bool :=
  decide (b.e.level = .low) && b.sample.isSome

/-- Every write of a list of events is on a pin that is configured already, or that an earlier event of the list
configured (R29). -/
def writesConfigured (done : List Pin) : List Event → Bool
  | []            => true
  | .cfg p :: es  => writesConfigured (p :: done) es
  | .wr p _ :: es => done.contains p && writesConfigured done es
  | .wait _ :: es => writesConfigured done es

/-- The event names an owned pin or none (R18). -/
def Event.isOwned (w : Wiring) : Event → Bool
  | .cfg p  => w.pins.contains p
  | .wr p _ => w.pins.contains p
  | .wait _ => true

/-- What holds in every state a host can bring about from a construction with six distinct pins. -/
structure Inv (s : State) : Prop where
  /-- R9, D23 -/
  distinct : s.wiring.Distinct
  /-- R23: bits 7:3 of `sh.ctrl` are 0. -/
  ctrl_reserved : s.shCtrl &&& 0xF8 = 0
  /-- R24: bits 7:2 of `sh.entry` are 0. -/
  entry_reserved : s.shEntry &&& 0xFC = 0
  /-- R22, R71: after INIT `sh.func` is what the geometry gives. -/
  func_current : s.ready = true → s.shFunc = funcFlags s.rows s.csize
  /-- R27: the index stays within the longest expansion. -/
  index_bound : s.micro + s.queue.length ≤ Config.longestExpansion
  /-- R28, R29: the pins are what the performed events made them. -/
  pins_replay : s.pins = replay s.wiring PinBank.reset s.trace
  /-- R18, R29. -/
  owned : ∀ ev ∈ s.history, ev.isOwned s.wiring = true
  /-- R29: every `Wr` follows the `Cfg` of its pin. -/
  configured : writesConfigured [] s.history = true
  /-- R33, R99: before INIT nothing has happened. -/
  before_init : s.ready = false →
    s.history = [] ∧ s.cols = Config.defaultColumns ∧ s.rows = Config.defaultRows ∧ s.csize = Config.defaultCharsize
  /-- R72, R74: after INIT, once drained, every pin is an output, E is low, and every sampled level is known. -/
  settles : s.ready = true →
    (replay s.wiring PinBank.reset s.history).allOutput = true ∧ (replay s.wiring PinBank.reset s.history).settled = true
  /-- R74: no latch samples ⊥. -/
  latches_known : ∀ x ∈ latches s.wiring s.history, x.isSome = true
  /-- R75: an even number of latches, four of them INIT's single nibbles. -/
  latches_paired : s.ready = true → 4 ≤ (latches s.wiring s.history).length ∧ (latches s.wiring s.history).length % 2 = 0
  /-- R75: the two latches of a pair have the same RS level. -/
  items_determined : ∀ x ∈ wireItems s.wiring s.history, x ≠ .undetermined
  /-- R72: no host hands items to the primitives. -/
  hosts_only : ∀ x ∈ s.port, x.isHosts = true

/-- The next operation will be looked at and not refused BUSY: the block is idle and not refused (R98, R101). -/
abbrev State.Idle (s : State) : Prop := s.refused = none ∧ s.queue = []

/-- Idle after INIT (R99). -/
abbrev State.Ready (s : State) : Prop := s.Idle ∧ s.ready = true

end Sys2Proof.Machine
end

