-- ==== Sys2Proof/Certificates/Slice0/Obligations.lean ====
section
/-! DEFINITION. The statements for the provers. Each docstring names the rule it formalises. "D<n>" is the spec's own
decision, "log entry <n>" the model's (notes/assumptions/). -/

open Sys2Proof Sys2Proof.Machine

/-! ## Encoding -/

/-- Decoding what the encoder writes gives the instruction back, for every well-formed instruction of the table (R48–R65,
whose operation words are D1 and D2). -/
def Obligations.DecodeOfEncodeIsIdentity : Prop :=
  ∀ i : Instr, WellFormed i → decode (encode i) = .ok i

/-- Every word the decoder accepts is well formed and, but for INIT, whose absent operands may hold anything (R50), is
exactly what the encoder writes: no reserved bit and no payload byte is overlooked (R49, R51, D21). -/
def Obligations.EncodeOfDecodeIsIdentity : Prop :=
  ∀ (e : Encoded) (i : Instr), decode e = .ok i → WellFormed i ∧ (i.mnemonic ≠ "INIT" → encode i = e)

/-- R50, R69 (the presence bits are D24): each operand of INIT is supplied exactly when its presence bit is 1, and is
ignored otherwise. -/
def Obligations.InitOperandsFollowPresenceBits : Prop :=
  ∀ a b c : Byte, c &&& 0x8E = 0 →
    decode (.op (packWord 0x01 a b c) []) =
      .ok (.init (if c.getLsbD 4 then some a else none) (if c.getLsbD 5 then some b else none)
        (if c.getLsbD 6 then some (c.extractLsb' 0 1) else none))

/-- spec/opcode_table.json: a word with a row's fixed bits, and with the payload its length calls for, decodes to that
row's instruction. -/
def Obligations.TableWordsDecodeToTheirRow : Prop :=
  (∀ r ∈ opRows, ∀ (w : OpWord) (p : List Byte), r.hits w.toNat = true → p.length = payloadLength w →
    ∃ i, decode (.op w p) = .ok i ∧ i.mnemonic = r.mnemonic) ∧
  (∀ r ∈ itemRows, r.format = .wire9 → ∀ x : BitVec 9, r.hits x.toNat = true →
    ∃ i, decode (carryWire x) = .ok i ∧ i.mnemonic = r.mnemonic) ∧
  (∀ r ∈ itemRows, r.format = .nib5 → ∀ x : BitVec 5, r.hits x.toNat = true →
    ∃ i, decode (carryNibble x) = .ok i ∧ i.mnemonic = r.mnemonic)

/-- R51, R98 (D21): an operation code of 0x00 or 0x13–0xFF is refused BAD_OPCODE, whatever the operands and payload. -/
def Obligations.UnusedOpcodesAreBadOpcode : Prop :=
  ∀ (w : OpWord) (p : List Byte), (fieldOpc w = 0 ∨ 0x13 ≤ (fieldOpc w).toNat) →
    decode (.op w p) = .error (.code .badOpcode)

/-- R51, R98, R100 (D21, D27): a reserved operand bit that is not zero is refused BAD_OPERAND, whatever the payload. -/
def Obligations.ReservedOperandBitsAreBadOperand : Prop :=
  ∀ r ∈ opRows, ∀ (w : OpWord) (p : List Byte), (fieldOpc w).toNat = r.pattern → r.hits w.toNat = false →
    decode (.op w p) = .error (.code .badOperand)

/-- R49, R98 (D19–D21): with every reserved bit zero, a payload of any length but the one called for (8 for DEFGLYPH, LEN
for PRINT, 0 for the others) is refused BAD_PAYLOAD. -/
def Obligations.WrongPayloadLengthIsBadPayload : Prop :=
  ∀ r ∈ opRows, ∀ (w : OpWord) (p : List Byte), r.hits w.toNat = true →
    p.length ≠ (if r.mnemonic = "DEFGLYPH" then 8 else if r.mnemonic = "PRINT" then w.toNat / 256 % 65536 else 0) →
    decode (.op w p) = .error (.code .badPayload)

/-- R65 (the leading-one reading is general knowledge, I4): for RS = 0 the class of a byte is the position of its most
significant 1 bit, `0:0x00` has none, and RS = 1 is W.DATA. -/
def Obligations.WireClassIsTheLeadingOne : Prop :=
  (∀ b : Byte, b ≠ 0 → ∃ i, decodeWire (0#1 ++ b) = some i ∧
    ["W.CLEAR", "W.HOME", "W.ENTRY", "W.DISPCTL", "W.SHIFT", "W.FUNC", "W.CGRAM", "W.DDRAM"][b.toNat.log2]? =
      some i.mnemonic) ∧
  decodeWire 0 = none ∧
  (∀ b : Byte, decodeWire (1#1 ++ b) = some (.wData b))

/-- Words written out from the spec (30_encoding.md R50, R53–R63; 95_test_vectors.md): a sanity statement. -/
def Obligations.SampleWordsDecode : Prop :=
  decode (.op 0x30041401 []) = .ok (.init (some 20) (some 4) none) ∧
  decode (.op 0x00004802 []) = .ok (.wrbyte 0x48) ∧
  decode (.op 0x00000006 []) = .ok .on ∧
  decode (.op 0x00000109 []) = .ok (.blink true) ∧
  decode (.op 0x0000000E []) = .ok .justr ∧
  decode (.op 0x00020511 []) = .ok (.setcur 5 2) ∧
  decode (.op 0x00000212 [0x48, 0x69]) = .ok (.print [0x48, 0x69]) ∧
  decode (.wire 0b000001101) = .ok (.wDispctl true false true) ∧
  decode (.wire 0b101001000) = .ok (.wData 0x48) ∧
  decode (.nibble 0b00011) = .ok .nWake

/-- R39 (D32): an operation on a byte-wide path is the word, least-significant byte first, then the payload in order. -/
def Obligations.BytePathIsLeastSignificantFirst : Prop :=
  ∀ (w : OpWord) (p : List Byte),
    toBytes w p = w.extractLsb' 0 8 :: w.extractLsb' 8 8 :: w.extractLsb' 16 8 :: w.extractLsb' 24 8 :: p ∧
    ofBytes (toBytes w p) = some (.op w p)

/-- R65: the instruction bytes an operation other than CMD can send are exactly those the rule lists. -/
def Obligations.SendableInstructionBytes : Prop :=
  ∀ b : Byte,
    (∃ (s : State) (i : Instr), s.shCtrl &&& 0xF8 = 0 ∧ s.shEntry &&& 0xFC = 0 ∧ i.isOperation = true ∧
      (∀ c, i ≠ .cmd c) ∧ WireItem.byte (0#1 ++ b) ∈ itemsSent i s) ↔
    (b = 0x01 ∨ b = 0x02 ∨ (0x04 ≤ b ∧ b ≤ 0x07) ∨ (0x08 ≤ b ∧ b ≤ 0x0F) ∨ b = 0x18 ∨ b = 0x1C ∨
      b = 0x20 ∨ b = 0x24 ∨ b = 0x28 ∨ b = 0x2C ∨ (0x40 ≤ b ∧ b ≤ 0x78 ∧ b &&& 7 = 0) ∨ 0x80 ≤ b)

/-! ## The primitives -/

/-- R72, R73 (the pin order is D6, the wait D7): NIBBLE drives the four data pins to bits 0–3 of its value, then pulses
E low, high, low; SEND writes RS, transfers `b[7:4]`, then `b[3:0]`, then waits T_CMD: sixteen events. -/
def Obligations.PrimitivesExpandToTheirEvents : Prop :=
  (∀ (w : Wiring) (v : Nat),
    nibbleEvents w v =
      [.wr w.d0 (v / 1 % 2 == 1), .wr w.d1 (v / 2 % 2 == 1), .wr w.d2 (v / 4 % 2 == 1), .wr w.d3 (v / 8 % 2 == 1),
        .wr w.e false, .wr w.e true, .wr w.e false]) ∧
  (∀ (w : Wiring) (rs : Bool) (b : Nat),
    sendEvents w rs b =
      [.wr w.rs rs] ++ nibbleEvents w (b / 16 % 16) ++ nibbleEvents w (b % 16) ++ [.wait .cmd] ∧
    (sendEvents w rs b).length = 16)

/-- R37: from any state of the pins in which E is low, SEND makes two latches, the high nibble of the byte and then the
low one, both at the RS level of the SEND. -/
def Obligations.SendLatchesHighNibbleFirst : Prop :=
  ∀ (w : Wiring) (p : PinBank) (rs : Bool) (b : Byte), w.Distinct → p.e.level = .low →
    latchesFrom w p (sendEvents w rs b.toNat) =
      [some (bit rs ++ b.extractLsb' 4 4), some (bit rs ++ b.extractLsb' 0 4)]

/-- R38, R74: `D_PIN[i]` carries bit i, so after a NIBBLE from E low, RS known, the one latch is `rs:v[3:0]`. -/
def Obligations.NibbleLatchesOnce : Prop :=
  ∀ (w : Wiring) (p : PinBank) (v : BitVec 4) (rs : BitVec 1), w.Distinct → p.e.level = .low →
    p.rs.level.bit? = some rs → latchesFrom w p (nibbleEvents w v.toNat) = [some (rs ++ v)]

/-- R96: the only reduction is on the wire: a value above a byte sends the same events as its low eight bits. -/
def Obligations.OnlyLowEightBitsReachTheWire : Prop :=
  ∀ (w : Wiring) (rs : Bool) (b : Nat), sendEvents w rs b = sendEvents w rs (b % 256)

/-! ## Operations: what each does when it is accepted -/

/-- R70, R71 (D4, D5, D13, D15; bit positions D12): INIT, idle and before any other, takes the supplied geometry, sets the
three shadows and `ready`, and queues its whole sequence; nothing else changes. -/
def Obligations.InitEstablishesTheShadows : Prop :=
  ∀ (cols rows : Option Byte) (csize : Option (BitVec 1)) (s : State), s.Idle → s.ready = false →
    let f : Byte := (if 1 < (rows.getD s.rows).toNat then 0x08 else 0) ||| (if csize.getD s.csize = 1 then 0x04 else 0)
    exec (.init cols rows csize) s = .next { s with
      cols := cols.getD s.cols, rows := rows.getD s.rows, csize := csize.getD s.csize,
      shFunc := f, shCtrl := 0x04, shEntry := 0x02, ready := true, micro := 0,
      queue :=
        [.cfg s.wiring.rs, .cfg s.wiring.e, .cfg s.wiring.d0, .cfg s.wiring.d1, .cfg s.wiring.d2, .cfg s.wiring.d3,
          .wr s.wiring.rs false, .wr s.wiring.e false]
        ++ nibbleEvents s.wiring 0x3 ++ [.wait .wake1]
        ++ nibbleEvents s.wiring 0x3 ++ [.wait .wake2]
        ++ nibbleEvents s.wiring 0x3 ++ [.wait .wake3]
        ++ nibbleEvents s.wiring 0x2 ++ [.wait .commit]
        ++ sendEvents s.wiring false (0x20 ||| f.toNat)
        ++ sendEvents s.wiring false 0x0C
        ++ sendEvents s.wiring false 0x06
        ++ sendEvents s.wiring false 0x01 ++ [.wait .long] }

/-- R76: WRBYTE, whole. Its word; the next state, with nothing changed but the queue and the index; the generic refusals
and no other; RS high once drained; every value latched unchanged; and the rule's example. -/
def Obligations.WrbyteSendsItsValue : Prop :=
  (∀ v : Byte, decode (.op (packWord 0x02 v 0 0) []) = .ok (.wrbyte v)) ∧
  (∀ (v : Byte) (s : State), s.Ready →
    exec (.wrbyte v) s = .next { s with queue := sendEvents s.wiring true v.toNat, micro := 0 }) ∧
  (∀ (v : Byte) (s : State), s.refused = none → ¬ s.Ready →
    exec (.wrbyte v) s = .next { s with refused := some (if s.queue = [] then .notReady else .busy) }) ∧
  (∀ (v : Byte) (w : Wiring) (p : PinBank), w.Distinct → p.e.level = .low →
    (replay w p (sendEvents w true v.toNat)).rs.level = .high ∧
    latchesFrom w p (sendEvents w true v.toNat) =
      [some (1#1 ++ v.extractLsb' 4 4), some (1#1 ++ v.extractLsb' 0 4)]) ∧
  (∀ w : Wiring, sendEvents w true 0x48 =
    [.wr w.rs true, .wr w.d0 false, .wr w.d1 false, .wr w.d2 true, .wr w.d3 false, .wr w.e false, .wr w.e true,
      .wr w.e false, .wr w.d0 false, .wr w.d1 false, .wr w.d2 false, .wr w.d3 true, .wr w.e false, .wr w.e true,
      .wr w.e false, .wait .cmd])

/-- R77 (D25): CMD sends its code as an instruction, updates no shadow and adds no long wait, whatever the code. -/
def Obligations.CmdSendsItsCodeAndNoShadow : Prop :=
  ∀ (code : Byte) (s : State), s.Ready →
    exec (.cmd code) s = .next { s with queue := sendEvents s.wiring false code.toNat, micro := 0 }

/-- R79, R80 (D8): CLEAR sends 0x01 and HOME 0x02; each adds the long wait after SEND's own; no shadow changes. -/
def Obligations.ClearAndHomeAddTheLongWait : Prop :=
  ∀ s : State, s.Ready →
    exec .clear s = .next { s with queue := sendEvents s.wiring false 0x01 ++ [.wait .long], micro := 0 } ∧
    exec .home s = .next { s with queue := sendEvents s.wiring false 0x02 ++ [.wait .long], micro := 0 }

/-- R81, R82 (bit position D12): ON sets and OFF clears bit 2 of the control shadow and resends the whole register. -/
def Obligations.OnAndOffSwitchTheDisplayBit : Prop :=
  ∀ s : State, s.Ready →
    exec .on s = .next { s with
      shCtrl := s.shCtrl ||| 0x04, micro := 0,
      queue := sendEvents s.wiring false (0x08 ||| (s.shCtrl ||| 0x04).toNat) } ∧
    exec .off s = .next { s with
      shCtrl := s.shCtrl &&& 0xFB, micro := 0,
      queue := sendEvents s.wiring false (0x08 ||| (s.shCtrl &&& 0xFB).toNat) }

/-- R83, R84 (bit positions D12): CURSOR sets or clears bit 1, BLINK bit 0, of the control shadow, and resends it. -/
def Obligations.CursorAndBlinkAssignTheirBit : Prop :=
  ∀ (en : Bool) (s : State), s.Ready →
    exec (.cursor en) s = .next { s with
      shCtrl := if en then s.shCtrl ||| 0x02 else s.shCtrl &&& 0xFD, micro := 0,
      queue := sendEvents s.wiring false (0x08 ||| (if en then s.shCtrl ||| 0x02 else s.shCtrl &&& 0xFD).toNat) } ∧
    exec (.blink en) s = .next { s with
      shCtrl := if en then s.shCtrl ||| 0x01 else s.shCtrl &&& 0xFE, micro := 0,
      queue := sendEvents s.wiring false (0x08 ||| (if en then s.shCtrl ||| 0x01 else s.shCtrl &&& 0xFE).toNat) }

/-- R86, R87 (bit positions D12): SCRL sends 0x18 and SCRR 0x1C; neither touches a shadow. -/
def Obligations.ScrollsAreStateless : Prop :=
  ∀ s : State, s.Ready →
    exec .scrl s = .next { s with queue := sendEvents s.wiring false 0x18, micro := 0 } ∧
    exec .scrr s = .next { s with queue := sendEvents s.wiring false 0x1C, micro := 0 }

/-- R88–R91 (D14, D12): LTR sets and RTL clears bit 1, JUSTR sets and JUSTL clears bit 0, of the entry shadow, and each
resends the whole register. -/
def Obligations.EntryOperationsSwitchTheirBit : Prop :=
  ∀ s : State, s.Ready →
    exec .ltr s = .next { s with
      shEntry := s.shEntry ||| 0x02, micro := 0,
      queue := sendEvents s.wiring false (0x04 ||| (s.shEntry ||| 0x02).toNat) } ∧
    exec .rtl s = .next { s with
      shEntry := s.shEntry &&& 0xFD, micro := 0,
      queue := sendEvents s.wiring false (0x04 ||| (s.shEntry &&& 0xFD).toNat) } ∧
    exec .justr s = .next { s with
      shEntry := s.shEntry ||| 0x01, micro := 0,
      queue := sendEvents s.wiring false (0x04 ||| (s.shEntry ||| 0x01).toNat) } ∧
    exec .justl s = .next { s with
      shEntry := s.shEntry &&& 0xFE, micro := 0,
      queue := sendEvents s.wiring false (0x04 ||| (s.shEntry &&& 0xFE).toNat) }

/-- R92 (D19): DEFGLYPH sets the CGRAM address of slot `index mod 8`, writes the eight rows whole, in order, and returns
to DDRAM address 0. -/
def Obligations.DefglyphWritesTheSlotAndReturns : Prop :=
  ∀ (index r0 r1 r2 r3 r4 r5 r6 r7 : Byte) (s : State), s.Ready →
    exec (.defglyph index ⟨r0, r1, r2, r3, r4, r5, r6, r7⟩) s = .next { s with
      micro := 0,
      queue := sendEvents s.wiring false (0x40 + 8 * (index.toNat % 8))
        ++ sendEvents s.wiring true r0.toNat ++ sendEvents s.wiring true r1.toNat
        ++ sendEvents s.wiring true r2.toNat ++ sendEvents s.wiring true r3.toNat
        ++ sendEvents s.wiring true r4.toNat ++ sendEvents s.wiring true r5.toNat
        ++ sendEvents s.wiring true r6.toNat ++ sendEvents s.wiring true r7.toNat
        ++ sendEvents s.wiring false 0x80 }

/-- R93, R94: SETCUR in rows 0–3 sends set-DDRAM-address with the exact sum of the row's line base and the column. -/
def Obligations.SetcurSendsLineBasePlusColumn : Prop :=
  ∀ (column row : Byte) (s : State), s.Ready → row.toNat < 4 →
    exec (.setcur column row) s = .next { s with
      micro := 0,
      queue := sendEvents s.wiring false (0x80 |||
        ((if row = 0 then 0 else if row = 1 then 0x40 else if row = 2 then 0x10 + s.cols.toNat else 0x40 + s.cols.toNat)
          + column.toNat)) }

/-- R95 (D20): PRINT sends each byte of the text as data, in order; the empty text sends nothing. -/
def Obligations.PrintSendsEachByteInOrder : Prop :=
  ∀ (text : List Byte) (s : State), s.Ready → text.length ≤ 65535 →
    exec (.print text) s = .next { s with queue := text.flatMap fun b => sendEvents s.wiring true b.toNat, micro := 0 }

/-- The byte items of the table as the SEND that delivers them (R53–R61, R73; the reading is log entry 6): from every block
that is not refused each joins the SEND of its nine bits to the queue and changes nothing else. -/
def Obligations.ByteItemsAreSends : Prop :=
  ∀ s : State, s.refused = none →
    exec .wClear s = .next { s with queue := s.queue ++ sendEvents s.wiring false 0x01 } ∧
    (∀ dc : BitVec 1, exec (.wHome dc) s =
      .next { s with queue := s.queue ++ sendEvents s.wiring false (0x02 + dc.toNat) }) ∧
    (∀ id sh : Bool, exec (.wEntry id sh) s =
      .next { s with queue := s.queue ++ sendEvents s.wiring false (0x04 + 2 * id.toNat + sh.toNat) }) ∧
    (∀ d c b : Bool, exec (.wDispctl d c b) s =
      .next { s with queue := s.queue ++ sendEvents s.wiring false (0x08 + 4 * d.toNat + 2 * c.toNat + b.toNat) }) ∧
    (∀ (sc rl : Bool) (dc : BitVec 2), exec (.wShift sc rl dc) s =
      .next { s with queue := s.queue ++ sendEvents s.wiring false (0x10 + 8 * sc.toNat + 4 * rl.toNat + dc.toNat) }) ∧
    (∀ (dl n f : Bool) (dc : BitVec 2), exec (.wFunc dl n f dc) s =
      .next { s with
        queue := s.queue ++ sendEvents s.wiring false
          (0x20 + 16 * dl.toNat + 8 * n.toNat + 4 * f.toNat + dc.toNat) }) ∧
    (∀ addr : BitVec 6, exec (.wCgram addr) s =
      .next { s with queue := s.queue ++ sendEvents s.wiring false (0x40 + addr.toNat) }) ∧
    (∀ addr : BitVec 7, exec (.wDdram addr) s =
      .next { s with queue := s.queue ++ sendEvents s.wiring false (0x80 + addr.toNat) }) ∧
    (∀ v : Byte, exec (.wData v) s = .next { s with queue := s.queue ++ sendEvents s.wiring true v.toNat })

/-- The nibble items of the table as the NIBBLE that delivers them (R62, R63, R72; log entries 6 and 7). -/
def Obligations.NibbleItemsAreNibbles : Prop :=
  ∀ s : State, s.refused = none →
    exec .nWake s = .next { s with queue := s.queue ++ nibbleEvents s.wiring 0x3 } ∧
    exec .nCommit4 s = .next { s with queue := s.queue ++ nibbleEvents s.wiring 0x2 }

/-! ## Operations: what holds of them together -/

/-- R62, R63, R70, R118: the expansion of every accepted INIT begins with exactly three wake nibbles and one mode-commit
nibble, each one latch followed by its own wait before the next, and all before any byte is sent; and these are the
table's N.WAKE and N.COMMIT4. Where each latch and wait falls (events 15 + 8k and 16 + 8k) rests on the two writes of D5
and the six configurations of D4. `Inv` rules out the states no run reaches in which E is high before INIT. -/
def Obligations.InitBeginsWithThreeWakesAndACommit : Prop :=
  (decode (.nibble 0x03) = .ok .nWake ∧ decode (.nibble 0x02) = .ok .nCommit4) ∧
  ∀ (cols rows : Option Byte) (csize : Option (BitVec 1)) (s : State), Inv s → s.Idle → s.ready = false →
    ∃ t : State, exec (.init cols rows csize) s = .next t ∧
      (let latched (n : Nat) := latchesFrom s.wiring s.pins (t.queue.take n)
       let waited (n : Nat) := waits (t.queue.take n)
       (latched 14 = [] ∧ waited 14 = []) ∧
       (latched 15 = [some 0x03] ∧ waited 15 = []) ∧
       (latched 16 = [some 0x03] ∧ waited 16 = [.wake1]) ∧
       (latched 23 = [some 0x03, some 0x03] ∧ waited 23 = [.wake1]) ∧
       (latched 24 = [some 0x03, some 0x03] ∧ waited 24 = [.wake1, .wake2]) ∧
       (latched 31 = [some 0x03, some 0x03, some 0x03] ∧ waited 31 = [.wake1, .wake2]) ∧
       (latched 32 = [some 0x03, some 0x03, some 0x03] ∧ waited 32 = [.wake1, .wake2, .wake3]) ∧
       (latched 39 = [some 0x03, some 0x03, some 0x03, some 0x02] ∧ waited 39 = [.wake1, .wake2, .wake3]) ∧
       (latched 40 = [some 0x03, some 0x03, some 0x03, some 0x02] ∧ waited 40 = [.wake1, .wake2, .wake3, .commit])) ∧
      (t.queue.take 40).length = 40 ∧
      (latchesFrom s.wiring s.pins t.queue).length = 12

/-- R59: DEFGLYPH's first wire item is W.CGRAM with address `8 × (index mod 8)`, one of 0x40, 0x48, … 0x78; and every
W.CGRAM byte `0 01aa aaaa` decodes to its address. -/
def Obligations.CgramAddressIsTheGlyphSlot : Prop :=
  (∀ a : BitVec 6, decodeWire (0b001#3 ++ a) = some (.wCgram a)) ∧
  (∀ (index : Byte) (g : Glyph) (s : State),
    (itemsSent (.defglyph index g) s).head? =
      some (.byte (0x40 + 8 * BitVec.ofNat 9 (index.toNat % 8))) ∧
    ((itemsSent (.defglyph index g) s).head?.bind WireItem.instr) =
      some (.wCgram (8 * BitVec.ofNat 6 (index.toNat % 8))))

/-- R61: W.DATA is `1:v` for any byte v; WRBYTE sends one, PRINT one per payload byte, DEFGLYPH one per bitmap row. -/
def Obligations.DataWritesCarryTheirByte : Prop :=
  (∀ v : Byte, decodeWire (1#1 ++ v) = some (.wData v)) ∧
  (∀ (v : Byte) (s : State), (itemsSent (.wrbyte v) s).map WireItem.instr = [some (.wData v)]) ∧
  (∀ (text : List Byte) (s : State),
    (itemsSent (.print text) s).map WireItem.instr = text.map fun v => some (.wData v)) ∧
  (∀ (index : Byte) (g : Glyph) (s : State),
    ((itemsSent (.defglyph index g) s).drop 1).map WireItem.instr =
      [some (.wData g.r0), some (.wData g.r1), some (.wData g.r2), some (.wData g.r3), some (.wData g.r4),
        some (.wData g.r5), some (.wData g.r6), some (.wData g.r7), some (.wDdram 0)])

/-- R93, R94, R96 (D18): the address of rows 0–3 is the exact sum of the row's line base, read with the current column
count, and the column; there is none for another row; it is at most 0x23E, and W.DDRAM carries its low seven bits. -/
def Obligations.CursorAddressIsExactThenTruncated : Prop :=
  ∀ cols column row : Byte,
    cursorAddress cols column 0 = some (0x00 + column.toNat) ∧
    cursorAddress cols column 1 = some (0x40 + column.toNat) ∧
    cursorAddress cols column 2 = some (0x10 + cols.toNat + column.toNat) ∧
    cursorAddress cols column 3 = some (0x40 + cols.toNat + column.toNat) ∧
    (row.toNat < 4 ↔ (cursorAddress cols column row).isSome = true) ∧
    ∀ addr, cursorAddress cols column row = some addr →
      addr ≤ 0x23E ∧ (sentItem false (ddramByte addr)).instr = some (.wDdram (BitVec.ofNat 7 addr))

/-- R68: PRINT of a text has the events of WRBYTE of each of its bytes; and a text too long for one PRINT has, as
consecutive PRINTs, the events of its whole. -/
def Obligations.PrintIsWrbytes : Prop :=
  (∀ (text : List Byte) (s t : State), s.Ready → runOps (text.map Instr.wrbyte) s = some t → text.length ≤ 65535 →
    ∃ u, runOps [.print text] s = some u ∧ t.trace = u.trace ∧ t.pins = u.pins ∧ t.shCtrl = u.shCtrl ∧
      t.shEntry = u.shEntry ∧ t.shFunc = u.shFunc) ∧
  (∀ (units : List Nat) (s : State), s.Ready →
    ∃ t, runOps (printText units) s = some t ∧
      t.trace = s.trace ++ (units.map (BitVec.ofNat 8)).flatMap fun b => sendEvents s.wiring true b.toNat)

/-- R123 (derived there): how many events, which waits and how many latches an accepted operation has. -/
def Obligations.EventsWaitsAndLatchesPerOperation : Prop :=
  ∀ (i : Instr) (s t : State), Inv s → i.isOperation = true → exec i s = .next t → t.refused = none →
    let counts (events latched : Nat) (ws : List Delay) : Prop :=
      t.queue.length = events ∧ waits t.queue = ws ∧
        (latches t.wiring t.history).length = (latches s.wiring s.history).length + latched
    match i with
    | .init _ _ _   => counts 105 12 [.wake1, .wake2, .wake3, .commit, .cmd, .cmd, .cmd, .cmd, .long]
    | .clear        => counts 17 2 [.cmd, .long]
    | .home         => counts 17 2 [.cmd, .long]
    | .defglyph _ _ => counts 160 20 (List.replicate 10 .cmd)
    | .print text   => counts (16 * text.length) (2 * text.length) (List.replicate text.length .cmd)
    | _             => counts 16 2 [.cmd]

/-- R10, R117 (D8, D9): whatever the delays, within their constraints and in whole milliseconds (log entry 18), CLEAR and
HOME wait strictly longer than any operation of one SEND, and the wake waits do not grow. -/
def Obligations.ClearWaitsStrictlyLonger : Prop :=
  ∀ (tm : Timing) (w : Wiring) (b c : Nat) (rs : Bool), tm.Valid →
    waitTotal tm (longCommandEvents w b) ≥ tm.long ∧
    waitTotal tm (sendEvents w rs c) < waitTotal tm (longCommandEvents w b) ∧
    (waits (wakeEvents w)).map tm.ms = [tm.wake1, tm.wake2, tm.wake3, tm.commit] ∧
    tm.wake1 ≥ tm.wake2 ∧ tm.wake2 ≥ tm.wake3 ∧ tm.wake1 > tm.wake3

/-- R64, R74, R75: an accepted operation, once drained, has delivered exactly its wire items after those delivered
before; with R64's byte for each. -/
def Obligations.OperationsDeliverTheirWireItems : Prop :=
  ∀ (i : Instr) (s t : State), Inv s → i.isOperation = true → exec i s = .next t → t.refused = none →
    wireItems t.wiring t.drained.trace = wireItems s.wiring s.trace ++ itemsSent i s

/-- R112: once INIT's events have drained all six pins are outputs, RS and E are 0 and D[3:0] = 0b0001. -/
def Obligations.InitLeavesThePinsSettled : Prop :=
  ∀ (cols rows : Option Byte) (csize : Option (BitVec 1)) (s : State), s.Idle → s.ready = false → s.wiring.Distinct →
    ∃ t, exec (.init cols rows csize) s = .next t ∧
      t.drained.pins = ⟨⟨.output, .low⟩, ⟨.output, .low⟩, ⟨.output, .high⟩, ⟨.output, .low⟩, ⟨.output, .low⟩,
        ⟨.output, .low⟩⟩ ∧
      t.drained.ready = true ∧ t.drained.shFunc = funcFlags (rows.getD s.rows) (csize.getD s.csize) ∧
      t.drained.shCtrl = 0x04 ∧ t.drained.shEntry = 0x02

/-- R85 (derived there; §8 P1): after any list of accepted operations from `sh.ctrl = 0x04`, `sh.ctrl` is D, C, B: D is 1
unless the last ON or OFF was OFF, C the operand of the last CURSOR, B of the last BLINK. -/
def Obligations.DisplayControlFollowsTheLastToggles : Prop :=
  ∀ (is : List Instr) (s t : State), s.Ready → s.shCtrl = 0x04 → runOps is s = some t →
    let power := (is.filterMap fun i => match i with | .on => some true | .off => some false | _ => none).getLast?
    let cursor := (is.filterMap fun i => match i with | .cursor en => some en | _ => none).getLast?
    let blink := (is.filterMap fun i => match i with | .blink en => some en | _ => none).getLast?
    t.shCtrl = 0#5 ++ bit (power.getD true) ++ bit (cursor.getD false) ++ bit (blink.getD false)

/-- R22–R25, R77: only INIT writes `sh.func` and the geometry; only INIT, ON, OFF, CURSOR and BLINK write `sh.ctrl`; only
INIT, LTR, RTL, JUSTR and JUSTL write `sh.entry`; no instruction writes the wiring, the pins or the trace, and none
clears `ready`. -/
def Obligations.OnlyTheOwnersWriteAShadow : Prop :=
  ∀ (i : Instr) (s t : State), exec i s = .next t →
    t.wiring = s.wiring ∧ t.pins = s.pins ∧ t.trace = s.trace ∧ t.port = s.port ∧ t.issued = s.issued ∧
    (s.ready = true → t.ready = true) ∧
    ((∀ a b c, i ≠ .init a b c) →
      t.shFunc = s.shFunc ∧ t.cols = s.cols ∧ t.rows = s.rows ∧ t.csize = s.csize ∧ t.ready = s.ready ∧
      (i ≠ .on → i ≠ .off → (∀ en, i ≠ .cursor en) → (∀ en, i ≠ .blink en) → t.shCtrl = s.shCtrl) ∧
      (i ≠ .ltr → i ≠ .rtl → i ≠ .justr → i ≠ .justl → t.shEntry = s.shEntry))

/-- R21: the character size is 0 at reset; only INIT writes it, and only when it is supplied; only INIT reads it; and it
decides at most one bit of one item INIT sends, the function set. -/
def Obligations.OnlyInitUsesTheCharacterSize : Prop :=
  State.reset.csize = 0 ∧
  (∀ (cols rows : Option Byte) (csize : Option (BitVec 1)) (s t : State), exec (.init cols rows csize) s = .next t →
    t.refused = none → t.csize = csize.getD s.csize) ∧
  (∀ (i : Instr) (s : State) (c : BitVec 1), (∀ a b d, i ≠ .init a b d) →
    exec i { s with csize := c } =
      match exec i s with
      | .next t    => .next { t with csize := c }
      | .fault f   => .fault f
      | .refused r => .refused r) ∧
  (∀ (cols rows : Option Byte) (c d : BitVec 1) (s : State) (x : WireItem),
    (itemsSent (.init cols rows (some c)) s).set 4 x = (itemsSent (.init cols rows (some d)) s).set 4 x) ∧
  (∃ k, ∀ (rows : Byte) (c d : BitVec 1) (j : Nat), j ≠ k →
    (funcFlags rows c).getLsbD j = (funcFlags rows d).getLsbD j)

/-- R32: as long as no CMD is issued, each shadow is what was last sent to the register it mirrors. -/
def Obligations.ShadowsMirrorWhatWasSent : Prop :=
  ∀ (i : Instr) (s t : State), Inv s → s.Mirrored → i.isOperation = true → (∀ c, i ≠ .cmd c) → exec i s = .next t →
    t.Mirrored

/-! ## Refusals -/

/-- R99 (D16): before INIT only INIT is accepted, and every other operation is refused NOT_READY; after it INIT is refused
REINIT, and every other operation is accepted, but for a SETCUR beyond the line-base table (R94). -/
def Obligations.ReadinessDecidesWhoIsAccepted : Prop :=
  (∀ (i : Instr) (s : State), i.isOperation = true → WellFormed i → (∀ a b c, i ≠ .init a b c) → s.Idle →
    s.ready = false → exec i s = .next { s with refused := some .notReady }) ∧
  (∀ (a b : Option Byte) (c : Option (BitVec 1)) (s : State), s.Ready →
    exec (.init a b c) s = .next { s with refused := some .reinit }) ∧
  (∀ (a b : Option Byte) (c : Option (BitVec 1)) (s : State), s.Idle → s.ready = false →
    ∃ t, exec (.init a b c) s = .next t ∧ t.refused = none ∧ t.ready = true) ∧
  (∀ (i : Instr) (s : State), i.isOperation = true → WellFormed i → (∀ a b c, i ≠ .init a b c) →
    (∀ column row, i = .setcur column row → row.toNat < 4) → s.Ready →
    ∃ t, exec i s = .next t ∧ t.refused = none ∧ t.ready = true)

/-- R94, R98 (D17): SETCUR with a row of 4 or more is refused ROW_RANGE, once it is ready. -/
def Obligations.RowsBeyondTheTableAreRefused : Prop :=
  ∀ (column row : Byte) (s : State), s.Ready → 4 ≤ row.toNat →
    exec (.setcur column row) s = .next { s with refused := some .rowRange }

/-- R98, R100, R108 (D27, D29): an operation that arrives while the queue is not empty is refused BUSY, whatever its
word, payload and the block's readiness. -/
def Obligations.BusyOutranksEveryOtherCause : Prop :=
  (∀ (s : State) (w : OpWord) (p : List Byte) (rest : List Input), s.refused = none →
    s.port = ⟨.after 0, .encoded (.op w p)⟩ :: rest → s.queue ≠ [] →
    step s = .next { s with port := rest, issued := some (.op w p), refused := some .busy }) ∧
  (∀ (i : Instr) (s : State), i.isOperation = true → s.refused = none → s.queue ≠ [] →
    exec i s = .next { s with refused := some .busy })

/-- R100 (D27): an operation that reaches an idle block and has no meaning as an encoding is refused with the decoder's
code, whatever the block's readiness. -/
def Obligations.EncodingIsCheckedBeforeTheState : Prop :=
  ∀ (s : State) (w : OpWord) (p : List Byte) (rest : List Input) (c : RefusalCode), s.Idle →
    s.port = ⟨.drained, .encoded (.op w p)⟩ :: rest → decode (.op w p) = .error (.code c) →
    step s = .next { s with port := rest, issued := some (.op w p), refused := some c }

/-- R101 (D26): a refusal is precise. An instruction that leaves the block refused found it not refused and changed
nothing else. -/
def Obligations.RefusalChangesOnlyTheMark : Prop :=
  ∀ (i : Instr) (s t : State), exec i s = .next t → t.refused ≠ none →
    s.refused = none ∧ t = { s with refused := t.refused }

/-- R101 (D26; the fault is log entry 1): a refused block accepts nothing and has no step, unless the host's next input is
a reset. -/
def Obligations.RefusedBlockHasNoStep : Prop :=
  ∀ (s : State) (c : RefusalCode), s.refused = some c → (∀ a rest, s.port ≠ ⟨a, .reset⟩ :: rest) →
    step s = .fault (.halted c)

/-- R101 (D26), R102, R111: there is no return from a refusal: only reset clears the mark, and no refusal happens during
another, since a refused block accepts nothing. That a refused block's instruction is the fault `halted` is log entry 1;
that a reset is an input of the port, and what it leaves of the host's inputs, is log entry 2. -/
def Obligations.OnlyResetClearsARefusal : Prop :=
  (∀ (s t : State) (c : RefusalCode), s.refused = some c → step s = .next t →
    ∃ a rest, s.port = ⟨a, .reset⟩ :: rest ∧ t = s.construct rest ∧ t.refused = none) ∧
  (∀ (i : Instr) (s : State) (c : RefusalCode), s.refused = some c → exec i s = .fault (.halted c))

/-! ## Steps -/

/-- R33, R111: every field after reset. The values of the pins' identifiers, of the three stored shadow bytes and of the
host's two fields are the model's (log entries 2, 4, 5, 14); so is the index's 0, which R33 does not list (log entry 13). -/
def Obligations.ResetValues : Prop :=
  let s := State.reset
  s.cols = 16 ∧ s.rows = 2 ∧ s.csize = 0 ∧ s.ready = false ∧ s.refused = none ∧ s.queue = [] ∧ s.trace = [] ∧
    s.micro = 0 ∧ s.funcView = none ∧ s.ctrlView = none ∧ s.entryView = none ∧
    (∀ p ∈ [s.pins.rs, s.pins.e, s.pins.d0, s.pins.d1, s.pins.d2, s.pins.d3], p = ⟨.unconfigured, .unknown⟩) ∧
    s.wiring.Distinct ∧ s.port = [] ∧ s.issued = none

/-- R28 (the arrival of an input is log entry 2): when an input reaches a block that is not refused and its words decode
to i, the step is i's meaning, with the input taken from the port and kept as the last issued one; so too for a word
placed by `withFetchWord`. -/
def Obligations.StepRunsTheDecodedInstruction : Prop :=
  (∀ (s : State) (a : Arrival) (e : Encoded) (rest : List Input) (i : Instr), s.refused = none →
    s.port = ⟨a, .encoded e⟩ :: rest → (a = .after 0 ∨ (a = .drained ∧ s.queue = [])) →
    (s.queue = [] ∨ ∀ w p, e ≠ .op w p) → decode e = .ok i →
    step s = exec i { s with port := rest, issued := some e }) ∧
  (∀ (s : State) (nbits w : Nat) (e : Encoded) (i : Instr), s.refused = none → tableWord nbits w = some e →
    (s.queue = [] ∨ ∀ w p, e ≠ .op w p) → decode e = .ok i →
    decodeTableWord nbits w = some i ∧ step (s.withFetchWord nbits w) = exec i { s with issued := some e })

/-- R28, R29, R106: a step in which no input arrives performs the head event: it leaves the queue, joins the trace, the
index moves on, and only the pin it names changes. -/
def Obligations.DrainStepPerformsTheHeadEvent : Prop :=
  ∀ (s : State) (ev : Event) (q : List Event), s.refused = none → s.port = [] → s.queue = ev :: q →
    s.wiring.Distinct →
    ∃ p, step s = .next { s with queue := q, micro := s.micro + 1, trace := s.trace ++ [ev], pins := p } ∧
      (∀ l, ev = .wr s.wiring.e l → p = { s.pins with e := { s.pins.e with level := if l then .high else .low } }) ∧
      (∀ l, ev = .wr s.wiring.rs l → p = { s.pins with rs := { s.pins.rs with level := if l then .high else .low } }) ∧
      (∀ l, ev = .wr s.wiring.d0 l → p = { s.pins with d0 := { s.pins.d0 with level := if l then .high else .low } }) ∧
      (∀ l, ev = .wr s.wiring.d1 l → p = { s.pins with d1 := { s.pins.d1 with level := if l then .high else .low } }) ∧
      (∀ l, ev = .wr s.wiring.d2 l → p = { s.pins with d2 := { s.pins.d2 with level := if l then .high else .low } }) ∧
      (∀ l, ev = .wr s.wiring.d3 l → p = { s.pins with d3 := { s.pins.d3 with level := if l then .high else .low } }) ∧
      (ev = .cfg s.wiring.e → p = { s.pins with e := { s.pins.e with mode := .output } }) ∧
      (ev = .cfg s.wiring.rs → p = { s.pins with rs := { s.pins.rs with mode := .output } }) ∧
      (ev = .cfg s.wiring.d0 → p = { s.pins with d0 := { s.pins.d0 with mode := .output } }) ∧
      (ev = .cfg s.wiring.d1 → p = { s.pins with d1 := { s.pins.d1 with mode := .output } }) ∧
      (ev = .cfg s.wiring.d2 → p = { s.pins with d2 := { s.pins.d2 with mode := .output } }) ∧
      (ev = .cfg s.wiring.d3 → p = { s.pins with d3 := { s.pins.d3 with mode := .output } }) ∧
      (∀ d, ev = .wait d → p = s.pins)

/-- R28, R44: with no input that cuts in, as many steps as the queue has events perform all of them, in order, and the
operation is complete. -/
def Obligations.QueueDrainsCompletely : Prop :=
  ∀ s : State, s.refused = none → (∀ x ∈ s.port.head?, x.arrival = .drained) →
    Host.Core.run core s.queue.length s = .next s.drained

/-- R44 (D28): every step but a reset keeps all that was performed or pending, in order, and only adds to its end; what has
been performed is never undone. -/
def Obligations.EventsKeepTheirOrder : Prop :=
  ∀ s t : State, step s = .next t → (∀ rest, schedule s ≠ .construct rest) →
    (∃ es, t.history = s.history ++ es) ∧ (∃ es, t.trace = s.trace ++ es) ∧ t.trace.length ≤ s.trace.length + 1

/-- R111: a reset that arrives gives every field its reset value, whatever the queue held; the pins are the ones of the
construction, and the host's later inputs stay (log entry 2). -/
def Obligations.ResetReconstructs : Prop :=
  ∀ (s : State) (rest : List Input), s.port = ⟨.after 0, .reset⟩ :: rest →
    step s = .next { State.reset with wiring := s.wiring, port := rest }

/-- R26, R18, R99: a step that is no reset never clears `ready` and never changes the wiring; it sets `ready` only by
INIT. -/
def Obligations.ReadyIsSetOnceAndKept : Prop :=
  ∀ s t : State, step s = .next t → (∀ rest, schedule s ≠ .construct rest) →
    t.wiring = s.wiring ∧ (s.ready = true → t.ready = true) ∧
    (s.ready = false → t.ready = true →
      ∃ e rest a b c, schedule s = .present e rest ∧ decode e = .ok (.init a b c) ∧ t.refused = none)

/-- R124: a host that issues operations one after another, each when the queue has drained, gets from the stepping machine
what the operations give one after another. -/
def Obligations.BlockingHostRunsOperationsInTurn : Prop :=
  ∀ (is : List Instr) (s t : State), (∀ i ∈ is, WellFormed i ∧ i.isOperation = true) → s.Idle →
    s.port = hostProgram (is.map encode) → runOps is s = some t →
    ∃ k u, Host.Core.run core k s = .next u ∧ u.endsSuccessfully = true ∧ u = { t with port := [], issued := u.issued }

/-! ## The invariant -/

/-- The invariant holds after reset (R33; the pins' identifiers are log entry 5). -/
def Obligations.InvariantHoldsAtReset : Prop := Inv State.reset

/-- Every step keeps the invariant: the shadows' always-0 bits (R22–R25), the pins as the trace made them (R29), every write
on a configured pin (R29), every latch known and paired (R74, R75), the index within the longest expansion (R27),
nothing performed before INIT (R99). -/
def Obligations.StepKeepsTheInvariant : Prop :=
  ∀ s t : State, Inv s → step s = .next t → Inv t
end

