-- ==== Sys2Proof/Laws/Encoding.lean ====
section
/-! SUPPORT. The fields of an operation word and the small functions of the decoder. -/

namespace Sys2Proof.Machine

theorem fieldOpc_pack (o a b c : Byte) : fieldOpc (packWord o a b c) = o := by
  unfold fieldOpc packWord
  apply BitVec.eq_of_getLsbD_eq; intro i hi
  simp only [BitVec.getLsbD_extractLsb', hi, decide_true, Bool.true_and, Nat.zero_add]
  rw [BitVec.getLsbD_append]; simp [hi]

theorem fieldA_pack (o a b c : Byte) : fieldA (packWord o a b c) = a := by
  unfold fieldA packWord
  apply BitVec.eq_of_getLsbD_eq; intro i hi
  simp only [BitVec.getLsbD_extractLsb', hi, decide_true, Bool.true_and]
  rw [BitVec.getLsbD_append, BitVec.getLsbD_append]; simp [hi, show ¬ (8 + i < 8) by omega, show 8 + i - 8 = i by omega]

theorem fieldB_pack (o a b c : Byte) : fieldB (packWord o a b c) = b := by
  unfold fieldB packWord
  apply BitVec.eq_of_getLsbD_eq; intro i hi
  simp only [BitVec.getLsbD_extractLsb', hi, decide_true, Bool.true_and]
  rw [BitVec.getLsbD_append, BitVec.getLsbD_append, BitVec.getLsbD_append]
  simp [hi, show ¬ (16 + i < 8) by omega, show ¬ (16 + i - 8 < 8) by omega, show 16 + i - 8 - 8 = i by omega]

theorem fieldC_pack (o a b c : Byte) : fieldC (packWord o a b c) = c := by
  unfold fieldC packWord
  apply BitVec.eq_of_getLsbD_eq; intro i hi
  simp only [BitVec.getLsbD_extractLsb', hi, decide_true, Bool.true_and]
  rw [BitVec.getLsbD_append, BitVec.getLsbD_append, BitVec.getLsbD_append]
  simp [hi, show ¬ (24 + i < 8) by omega, show ¬ (24 + i - 8 < 8) by omega, show ¬ (24 + i - 8 - 8 < 8) by omega,
    show 24 + i - 8 - 8 - 8 = i by omega]

theorem pack_fields (w : OpWord) : packWord (fieldOpc w) (fieldA w) (fieldB w) (fieldC w) = w := by
  unfold packWord fieldOpc fieldA fieldB fieldC
  apply BitVec.eq_of_getLsbD_eq; intro i hi
  rw [BitVec.getLsbD_append, BitVec.getLsbD_append, BitVec.getLsbD_append]
  simp only [BitVec.getLsbD_extractLsb']
  split
  · simp [*]
  · split
    · simp [*, show 8 + (i - 8) = i by omega]
    · split
      · simp [*, show 16 + (i - 8 - 8) = i by omega]
      · simp [*, show 24 + (i - 8 - 8 - 8) = i by omega, show i - 8 - 8 - 8 < 8 by omega]

/-- A word has a row's fixed bits exactly when its fields do, for a row whose mask has the fields `o`, `a`, `b`, `c` and
whose pattern is in the low byte, as every operation's is. -/
theorem hits_iff_fields (r : TableRow) (w : OpWord) (o a b c : Byte) (hm : BitVec.ofNat 32 r.mask = packWord o a b c)
    (hl : r.mask < 2 ^ 32) (po : Byte) (hp : r.pattern = po.toNat) :
    r.hits w.toNat = true ↔ fieldOpc w &&& o = po ∧ fieldA w &&& a = 0 ∧ fieldB w &&& b = 0 ∧ fieldC w &&& c = 0 := by
  have e : r.hits w.toNat = true ↔ w &&& packWord o a b c = packWord po 0 0 0 := by
    rw [← hm, ← BitVec.toNat_inj]
    have e2 : (packWord po 0 0 0).toNat = po.toNat := by clear hp; revert po; decide
    rw [e2, BitVec.toNat_and, BitVec.toNat_ofNat, Nat.mod_eq_of_lt hl, TableRow.hits, hp, beq_iff_eq]
  have h1 : w &&& packWord o a b c =
      packWord (fieldOpc w &&& o) (fieldA w &&& a) (fieldB w &&& b) (fieldC w &&& c) := by
    have f1 : ∀ x y : OpWord, fieldOpc (x &&& y) = fieldOpc x &&& fieldOpc y := fun x y => BitVec.extractLsb'_and
    have f2 : ∀ x y : OpWord, fieldA (x &&& y) = fieldA x &&& fieldA y := fun x y => BitVec.extractLsb'_and
    have f3 : ∀ x y : OpWord, fieldB (x &&& y) = fieldB x &&& fieldB y := fun x y => BitVec.extractLsb'_and
    have f4 : ∀ x y : OpWord, fieldC (x &&& y) = fieldC x &&& fieldC y := fun x y => BitVec.extractLsb'_and
    rw [← pack_fields (w &&& packWord o a b c), f1, f2, f3, f4, fieldOpc_pack, fieldA_pack, fieldB_pack, fieldC_pack]
  rw [e, h1]
  constructor
  · intro h
    have g1 := congrArg fieldOpc h
    have g2 := congrArg fieldA h
    have g3 := congrArg fieldB h
    have g4 := congrArg fieldC h
    rw [fieldOpc_pack, fieldOpc_pack] at g1
    rw [fieldA_pack, fieldA_pack] at g2
    rw [fieldB_pack, fieldB_pack] at g3
    rw [fieldC_pack, fieldC_pack] at g4
    exact ⟨g1, g2, g3, g4⟩
  · rintro ⟨h1, h2, h3, h4⟩; rw [h1, h2, h3, h4]

/-- The bits of INIT's flags operand, read back (R50). -/
theorem initFlags_spec : ∀ (p q r : Bool) (z : BitVec 1),
    let c : Byte := 0#1 ++ bit r ++ bit q ++ bit p ++ 0#3 ++ z
    c &&& 0x8E = 0 ∧ c.getLsbD 4 = p ∧ c.getLsbD 5 = q ∧ c.getLsbD 6 = r ∧ c.extractLsb' 0 1 = z := by decide

/-- CURSOR's and BLINK's operand, read back (R50). -/
theorem enableField_spec : ∀ en : Bool,
    (0#7 ++ bit en : Byte) &&& 0xFE = 0 ∧ (0#7 ++ bit en : Byte).getLsbD 0 = en := by decide

theorem supplied_getD {α : Type} (o : Option α) (d : α) : supplied o.isSome (o.getD d) = o := by
  cases o <;> rfl

/-- LEN reads back the length of the text (R49). -/
theorem fieldLen_of_text (o c : Byte) (text : List Byte) (h : text.length ≤ 65535) :
    fieldLen (packWord o (lenLow text) (lenHigh text) c) = text.length := by
  rw [fieldLen, fieldA_pack, fieldB_pack, BitVec.toNat_append, lenLow, lenHigh]
  have e := Nat.shiftLeft_add_eq_or_of_lt (show text.length % 256 < 2 ^ 8 by omega) (text.length / 256 % 256)
  simp only [BitVec.toNat_ofNat]
  norm_num at e ⊢
  rw [← e, Nat.shiftLeft_eq]; omega

theorem checked_eq_ok {r : Bool} {o : Option Instr} {i : Instr} : checked r o = .ok i ↔ r = true ∧ o = some i := by
  unfold checked
  cases r <;> cases o <;> simp

theorem noPayload_eq_some {p : List Byte} {i j : Instr} : noPayload p i = some j ↔ p = [] ∧ i = j := by
  unfold noPayload
  cases p <;> simp

/-- An operation word never decodes to a wire item. -/
theorem decodeOp_isOperation {w : OpWord} {p : List Byte} {i : Instr} (h : decodeOp w p = .ok i) :
    i.isOperation = true := by
  unfold decodeOp at h
  dsimp only at h
  split at h
  all_goals first
    | (obtain ⟨-, e⟩ := checked_eq_ok.mp h
       first
         | (obtain ⟨-, rfl⟩ := noPayload_eq_some.mp e; rfl)
         | (obtain ⟨_, _, rfl⟩ := Option.map_eq_some_iff.mp e; rfl)
         | (unfold printOf at e; split at e
            · cases e; rfl
            · cases e))
    | cases h

end Sys2Proof.Machine
end

