-- ==== Sys2Proof/Laws/State.lean ====
section
/-! SUPPORT. One lemma per field of State and per update of the machine, all true by unfolding, so that no later proof
unfolds a record update. -/

namespace Sys2Proof.Machine

/-! ## State.accept -/

@[simp] theorem State.accept_wiring (s : State) (es : List Event) : (s.accept es).wiring = s.wiring := rfl
@[simp] theorem State.accept_cols (s : State) (es : List Event) : (s.accept es).cols = s.cols := rfl
@[simp] theorem State.accept_rows (s : State) (es : List Event) : (s.accept es).rows = s.rows := rfl
@[simp] theorem State.accept_csize (s : State) (es : List Event) : (s.accept es).csize = s.csize := rfl
@[simp] theorem State.accept_shFunc (s : State) (es : List Event) : (s.accept es).shFunc = s.shFunc := rfl
@[simp] theorem State.accept_shCtrl (s : State) (es : List Event) : (s.accept es).shCtrl = s.shCtrl := rfl
@[simp] theorem State.accept_shEntry (s : State) (es : List Event) : (s.accept es).shEntry = s.shEntry := rfl
@[simp] theorem State.accept_ready (s : State) (es : List Event) : (s.accept es).ready = s.ready := rfl
@[simp] theorem State.accept_refused (s : State) (es : List Event) : (s.accept es).refused = s.refused := rfl
@[simp] theorem State.accept_queue (s : State) (es : List Event) : (s.accept es).queue = s.queue ++ es := rfl
@[simp] theorem State.accept_micro (s : State) (es : List Event) : (s.accept es).micro = 0 := rfl
@[simp] theorem State.accept_pins (s : State) (es : List Event) : (s.accept es).pins = s.pins := rfl
@[simp] theorem State.accept_trace (s : State) (es : List Event) : (s.accept es).trace = s.trace := rfl
@[simp] theorem State.accept_issued (s : State) (es : List Event) : (s.accept es).issued = s.issued := rfl
@[simp] theorem State.accept_port (s : State) (es : List Event) : (s.accept es).port = s.port := rfl

/-! ## State.emit -/

@[simp] theorem State.emit_wiring (s : State) (es : List Event) : (s.emit es).wiring = s.wiring := rfl
@[simp] theorem State.emit_cols (s : State) (es : List Event) : (s.emit es).cols = s.cols := rfl
@[simp] theorem State.emit_rows (s : State) (es : List Event) : (s.emit es).rows = s.rows := rfl
@[simp] theorem State.emit_csize (s : State) (es : List Event) : (s.emit es).csize = s.csize := rfl
@[simp] theorem State.emit_shFunc (s : State) (es : List Event) : (s.emit es).shFunc = s.shFunc := rfl
@[simp] theorem State.emit_shCtrl (s : State) (es : List Event) : (s.emit es).shCtrl = s.shCtrl := rfl
@[simp] theorem State.emit_shEntry (s : State) (es : List Event) : (s.emit es).shEntry = s.shEntry := rfl
@[simp] theorem State.emit_ready (s : State) (es : List Event) : (s.emit es).ready = s.ready := rfl
@[simp] theorem State.emit_refused (s : State) (es : List Event) : (s.emit es).refused = s.refused := rfl
@[simp] theorem State.emit_queue (s : State) (es : List Event) : (s.emit es).queue = s.queue ++ es := rfl
@[simp] theorem State.emit_micro (s : State) (es : List Event) : (s.emit es).micro = s.micro := rfl
@[simp] theorem State.emit_pins (s : State) (es : List Event) : (s.emit es).pins = s.pins := rfl
@[simp] theorem State.emit_trace (s : State) (es : List Event) : (s.emit es).trace = s.trace := rfl
@[simp] theorem State.emit_issued (s : State) (es : List Event) : (s.emit es).issued = s.issued := rfl
@[simp] theorem State.emit_port (s : State) (es : List Event) : (s.emit es).port = s.port := rfl

/-! ## State.sendCtrl -/

@[simp] theorem State.sendCtrl_wiring (s : State) (v : Byte) : (s.sendCtrl v).wiring = s.wiring := rfl
@[simp] theorem State.sendCtrl_cols (s : State) (v : Byte) : (s.sendCtrl v).cols = s.cols := rfl
@[simp] theorem State.sendCtrl_rows (s : State) (v : Byte) : (s.sendCtrl v).rows = s.rows := rfl
@[simp] theorem State.sendCtrl_csize (s : State) (v : Byte) : (s.sendCtrl v).csize = s.csize := rfl
@[simp] theorem State.sendCtrl_shFunc (s : State) (v : Byte) : (s.sendCtrl v).shFunc = s.shFunc := rfl
@[simp] theorem State.sendCtrl_shCtrl (s : State) (v : Byte) : (s.sendCtrl v).shCtrl = v := rfl
@[simp] theorem State.sendCtrl_shEntry (s : State) (v : Byte) : (s.sendCtrl v).shEntry = s.shEntry := rfl
@[simp] theorem State.sendCtrl_ready (s : State) (v : Byte) : (s.sendCtrl v).ready = s.ready := rfl
@[simp] theorem State.sendCtrl_refused (s : State) (v : Byte) : (s.sendCtrl v).refused = s.refused := rfl
@[simp] theorem State.sendCtrl_queue (s : State) (v : Byte) : (s.sendCtrl v).queue = s.queue ++ sendEvents s.wiring false (ctrlByte v) := rfl
@[simp] theorem State.sendCtrl_micro (s : State) (v : Byte) : (s.sendCtrl v).micro = 0 := rfl
@[simp] theorem State.sendCtrl_pins (s : State) (v : Byte) : (s.sendCtrl v).pins = s.pins := rfl
@[simp] theorem State.sendCtrl_trace (s : State) (v : Byte) : (s.sendCtrl v).trace = s.trace := rfl
@[simp] theorem State.sendCtrl_issued (s : State) (v : Byte) : (s.sendCtrl v).issued = s.issued := rfl
@[simp] theorem State.sendCtrl_port (s : State) (v : Byte) : (s.sendCtrl v).port = s.port := rfl

/-! ## State.sendEntry -/

@[simp] theorem State.sendEntry_wiring (s : State) (v : Byte) : (s.sendEntry v).wiring = s.wiring := rfl
@[simp] theorem State.sendEntry_cols (s : State) (v : Byte) : (s.sendEntry v).cols = s.cols := rfl
@[simp] theorem State.sendEntry_rows (s : State) (v : Byte) : (s.sendEntry v).rows = s.rows := rfl
@[simp] theorem State.sendEntry_csize (s : State) (v : Byte) : (s.sendEntry v).csize = s.csize := rfl
@[simp] theorem State.sendEntry_shFunc (s : State) (v : Byte) : (s.sendEntry v).shFunc = s.shFunc := rfl
@[simp] theorem State.sendEntry_shCtrl (s : State) (v : Byte) : (s.sendEntry v).shCtrl = s.shCtrl := rfl
@[simp] theorem State.sendEntry_shEntry (s : State) (v : Byte) : (s.sendEntry v).shEntry = v := rfl
@[simp] theorem State.sendEntry_ready (s : State) (v : Byte) : (s.sendEntry v).ready = s.ready := rfl
@[simp] theorem State.sendEntry_refused (s : State) (v : Byte) : (s.sendEntry v).refused = s.refused := rfl
@[simp] theorem State.sendEntry_queue (s : State) (v : Byte) : (s.sendEntry v).queue = s.queue ++ sendEvents s.wiring false (entryByte v) := rfl
@[simp] theorem State.sendEntry_micro (s : State) (v : Byte) : (s.sendEntry v).micro = 0 := rfl
@[simp] theorem State.sendEntry_pins (s : State) (v : Byte) : (s.sendEntry v).pins = s.pins := rfl
@[simp] theorem State.sendEntry_trace (s : State) (v : Byte) : (s.sendEntry v).trace = s.trace := rfl
@[simp] theorem State.sendEntry_issued (s : State) (v : Byte) : (s.sendEntry v).issued = s.issued := rfl
@[simp] theorem State.sendEntry_port (s : State) (v : Byte) : (s.sendEntry v).port = s.port := rfl

/-! ## State.withGeometry -/

@[simp] theorem State.withGeometry_wiring (s : State) (c r : Option Byte) (z : Option (BitVec 1)) : (s.withGeometry c r z).wiring = s.wiring := rfl
@[simp] theorem State.withGeometry_cols (s : State) (c r : Option Byte) (z : Option (BitVec 1)) : (s.withGeometry c r z).cols = override c s.cols := rfl
@[simp] theorem State.withGeometry_rows (s : State) (c r : Option Byte) (z : Option (BitVec 1)) : (s.withGeometry c r z).rows = override r s.rows := rfl
@[simp] theorem State.withGeometry_csize (s : State) (c r : Option Byte) (z : Option (BitVec 1)) : (s.withGeometry c r z).csize = override z s.csize := rfl
@[simp] theorem State.withGeometry_shFunc (s : State) (c r : Option Byte) (z : Option (BitVec 1)) : (s.withGeometry c r z).shFunc = s.shFunc := rfl
@[simp] theorem State.withGeometry_shCtrl (s : State) (c r : Option Byte) (z : Option (BitVec 1)) : (s.withGeometry c r z).shCtrl = s.shCtrl := rfl
@[simp] theorem State.withGeometry_shEntry (s : State) (c r : Option Byte) (z : Option (BitVec 1)) : (s.withGeometry c r z).shEntry = s.shEntry := rfl
@[simp] theorem State.withGeometry_ready (s : State) (c r : Option Byte) (z : Option (BitVec 1)) : (s.withGeometry c r z).ready = s.ready := rfl
@[simp] theorem State.withGeometry_refused (s : State) (c r : Option Byte) (z : Option (BitVec 1)) : (s.withGeometry c r z).refused = s.refused := rfl
@[simp] theorem State.withGeometry_queue (s : State) (c r : Option Byte) (z : Option (BitVec 1)) : (s.withGeometry c r z).queue = s.queue := rfl
@[simp] theorem State.withGeometry_micro (s : State) (c r : Option Byte) (z : Option (BitVec 1)) : (s.withGeometry c r z).micro = s.micro := rfl
@[simp] theorem State.withGeometry_pins (s : State) (c r : Option Byte) (z : Option (BitVec 1)) : (s.withGeometry c r z).pins = s.pins := rfl
@[simp] theorem State.withGeometry_trace (s : State) (c r : Option Byte) (z : Option (BitVec 1)) : (s.withGeometry c r z).trace = s.trace := rfl
@[simp] theorem State.withGeometry_issued (s : State) (c r : Option Byte) (z : Option (BitVec 1)) : (s.withGeometry c r z).issued = s.issued := rfl
@[simp] theorem State.withGeometry_port (s : State) (c r : Option Byte) (z : Option (BitVec 1)) : (s.withGeometry c r z).port = s.port := rfl

/-! ## State.establish -/

@[simp] theorem State.establish_wiring (s : State) : (s.establish).wiring = s.wiring := rfl
@[simp] theorem State.establish_cols (s : State) : (s.establish).cols = s.cols := rfl
@[simp] theorem State.establish_rows (s : State) : (s.establish).rows = s.rows := rfl
@[simp] theorem State.establish_csize (s : State) : (s.establish).csize = s.csize := rfl
@[simp] theorem State.establish_shFunc (s : State) : (s.establish).shFunc = funcFlags s.rows s.csize := rfl
@[simp] theorem State.establish_shCtrl (s : State) : (s.establish).shCtrl = initialCtrl := rfl
@[simp] theorem State.establish_shEntry (s : State) : (s.establish).shEntry = initialEntry := rfl
@[simp] theorem State.establish_ready (s : State) : (s.establish).ready = true := rfl
@[simp] theorem State.establish_refused (s : State) : (s.establish).refused = s.refused := rfl
@[simp] theorem State.establish_queue (s : State) : (s.establish).queue = s.queue := rfl
@[simp] theorem State.establish_micro (s : State) : (s.establish).micro = s.micro := rfl
@[simp] theorem State.establish_pins (s : State) : (s.establish).pins = s.pins := rfl
@[simp] theorem State.establish_trace (s : State) : (s.establish).trace = s.trace := rfl
@[simp] theorem State.establish_issued (s : State) : (s.establish).issued = s.issued := rfl
@[simp] theorem State.establish_port (s : State) : (s.establish).port = s.port := rfl

/-! ## State.construct -/

@[simp] theorem State.construct_wiring (s : State) (rest : List Input) : (s.construct rest).wiring = s.wiring := rfl
@[simp] theorem State.construct_cols (s : State) (rest : List Input) : (s.construct rest).cols = State.reset.cols := rfl
@[simp] theorem State.construct_rows (s : State) (rest : List Input) : (s.construct rest).rows = State.reset.rows := rfl
@[simp] theorem State.construct_csize (s : State) (rest : List Input) : (s.construct rest).csize = State.reset.csize := rfl
@[simp] theorem State.construct_shFunc (s : State) (rest : List Input) : (s.construct rest).shFunc = State.reset.shFunc := rfl
@[simp] theorem State.construct_shCtrl (s : State) (rest : List Input) : (s.construct rest).shCtrl = State.reset.shCtrl := rfl
@[simp] theorem State.construct_shEntry (s : State) (rest : List Input) : (s.construct rest).shEntry = State.reset.shEntry := rfl
@[simp] theorem State.construct_ready (s : State) (rest : List Input) : (s.construct rest).ready = State.reset.ready := rfl
@[simp] theorem State.construct_refused (s : State) (rest : List Input) : (s.construct rest).refused = State.reset.refused := rfl
@[simp] theorem State.construct_queue (s : State) (rest : List Input) : (s.construct rest).queue = State.reset.queue := rfl
@[simp] theorem State.construct_micro (s : State) (rest : List Input) : (s.construct rest).micro = State.reset.micro := rfl
@[simp] theorem State.construct_pins (s : State) (rest : List Input) : (s.construct rest).pins = State.reset.pins := rfl
@[simp] theorem State.construct_trace (s : State) (rest : List Input) : (s.construct rest).trace = State.reset.trace := rfl
@[simp] theorem State.construct_issued (s : State) (rest : List Input) : (s.construct rest).issued = State.reset.issued := rfl
@[simp] theorem State.construct_port (s : State) (rest : List Input) : (s.construct rest).port = rest := rfl

/-! ## State.take -/

@[simp] theorem State.take_wiring (s : State) (e : Encoded) (rest : List Input) : (s.take e rest).wiring = s.wiring := rfl
@[simp] theorem State.take_cols (s : State) (e : Encoded) (rest : List Input) : (s.take e rest).cols = s.cols := rfl
@[simp] theorem State.take_rows (s : State) (e : Encoded) (rest : List Input) : (s.take e rest).rows = s.rows := rfl
@[simp] theorem State.take_csize (s : State) (e : Encoded) (rest : List Input) : (s.take e rest).csize = s.csize := rfl
@[simp] theorem State.take_shFunc (s : State) (e : Encoded) (rest : List Input) : (s.take e rest).shFunc = s.shFunc := rfl
@[simp] theorem State.take_shCtrl (s : State) (e : Encoded) (rest : List Input) : (s.take e rest).shCtrl = s.shCtrl := rfl
@[simp] theorem State.take_shEntry (s : State) (e : Encoded) (rest : List Input) : (s.take e rest).shEntry = s.shEntry := rfl
@[simp] theorem State.take_ready (s : State) (e : Encoded) (rest : List Input) : (s.take e rest).ready = s.ready := rfl
@[simp] theorem State.take_refused (s : State) (e : Encoded) (rest : List Input) : (s.take e rest).refused = s.refused := rfl
@[simp] theorem State.take_queue (s : State) (e : Encoded) (rest : List Input) : (s.take e rest).queue = s.queue := rfl
@[simp] theorem State.take_micro (s : State) (e : Encoded) (rest : List Input) : (s.take e rest).micro = s.micro := rfl
@[simp] theorem State.take_pins (s : State) (e : Encoded) (rest : List Input) : (s.take e rest).pins = s.pins := rfl
@[simp] theorem State.take_trace (s : State) (e : Encoded) (rest : List Input) : (s.take e rest).trace = s.trace := rfl
@[simp] theorem State.take_issued (s : State) (e : Encoded) (rest : List Input) : (s.take e rest).issued = some e := rfl
@[simp] theorem State.take_port (s : State) (e : Encoded) (rest : List Input) : (s.take e rest).port = rest := rfl

/-! ## State.withInput -/

@[simp] theorem State.withInput_wiring (s : State) (e : Encoded) : (s.withInput e).wiring = s.wiring := rfl
@[simp] theorem State.withInput_cols (s : State) (e : Encoded) : (s.withInput e).cols = s.cols := rfl
@[simp] theorem State.withInput_rows (s : State) (e : Encoded) : (s.withInput e).rows = s.rows := rfl
@[simp] theorem State.withInput_csize (s : State) (e : Encoded) : (s.withInput e).csize = s.csize := rfl
@[simp] theorem State.withInput_shFunc (s : State) (e : Encoded) : (s.withInput e).shFunc = s.shFunc := rfl
@[simp] theorem State.withInput_shCtrl (s : State) (e : Encoded) : (s.withInput e).shCtrl = s.shCtrl := rfl
@[simp] theorem State.withInput_shEntry (s : State) (e : Encoded) : (s.withInput e).shEntry = s.shEntry := rfl
@[simp] theorem State.withInput_ready (s : State) (e : Encoded) : (s.withInput e).ready = s.ready := rfl
@[simp] theorem State.withInput_refused (s : State) (e : Encoded) : (s.withInput e).refused = s.refused := rfl
@[simp] theorem State.withInput_queue (s : State) (e : Encoded) : (s.withInput e).queue = s.queue := rfl
@[simp] theorem State.withInput_micro (s : State) (e : Encoded) : (s.withInput e).micro = s.micro := rfl
@[simp] theorem State.withInput_pins (s : State) (e : Encoded) : (s.withInput e).pins = s.pins := rfl
@[simp] theorem State.withInput_trace (s : State) (e : Encoded) : (s.withInput e).trace = s.trace := rfl
@[simp] theorem State.withInput_issued (s : State) (e : Encoded) : (s.withInput e).issued = s.issued := rfl
@[simp] theorem State.withInput_port (s : State) (e : Encoded) : (s.withInput e).port = ⟨.after 0, .encoded e⟩ :: s.port := rfl

/-! ## State.drained -/

@[simp] theorem State.drained_wiring (s : State) : (s.drained).wiring = s.wiring := rfl
@[simp] theorem State.drained_cols (s : State) : (s.drained).cols = s.cols := rfl
@[simp] theorem State.drained_rows (s : State) : (s.drained).rows = s.rows := rfl
@[simp] theorem State.drained_csize (s : State) : (s.drained).csize = s.csize := rfl
@[simp] theorem State.drained_shFunc (s : State) : (s.drained).shFunc = s.shFunc := rfl
@[simp] theorem State.drained_shCtrl (s : State) : (s.drained).shCtrl = s.shCtrl := rfl
@[simp] theorem State.drained_shEntry (s : State) : (s.drained).shEntry = s.shEntry := rfl
@[simp] theorem State.drained_ready (s : State) : (s.drained).ready = s.ready := rfl
@[simp] theorem State.drained_refused (s : State) : (s.drained).refused = s.refused := rfl
@[simp] theorem State.drained_queue (s : State) : (s.drained).queue = [] := rfl
@[simp] theorem State.drained_micro (s : State) : (s.drained).micro = s.micro + s.queue.length := rfl
@[simp] theorem State.drained_pins (s : State) : (s.drained).pins = replay s.wiring s.pins s.queue := rfl
@[simp] theorem State.drained_trace (s : State) : (s.drained).trace = s.trace ++ s.queue := rfl
@[simp] theorem State.drained_issued (s : State) : (s.drained).issued = s.issued := rfl
@[simp] theorem State.drained_port (s : State) : (s.drained).port = s.port := rfl

/-! ## State.drain and State.advance -/

theorem State.drain_nil (s : State) (h : s.queue = []) : s.drain = s := by
  simp [State.drain, h]

theorem State.drain_cons (s : State) (ev : Event) (q : List Event) (h : s.queue = ev :: q) :
    s.drain = { s with
      queue := q, micro := s.micro + 1, pins := s.pins.apply s.wiring ev, trace := s.trace ++ [ev] } := by
  simp [State.drain, h]

@[simp] theorem State.drain_wiring (s : State) : s.drain.wiring = s.wiring := by
  unfold State.drain; split <;> rfl
@[simp] theorem State.drain_cols (s : State) : s.drain.cols = s.cols := by
  unfold State.drain; split <;> rfl
@[simp] theorem State.drain_rows (s : State) : s.drain.rows = s.rows := by
  unfold State.drain; split <;> rfl
@[simp] theorem State.drain_csize (s : State) : s.drain.csize = s.csize := by
  unfold State.drain; split <;> rfl
@[simp] theorem State.drain_shFunc (s : State) : s.drain.shFunc = s.shFunc := by
  unfold State.drain; split <;> rfl
@[simp] theorem State.drain_shCtrl (s : State) : s.drain.shCtrl = s.shCtrl := by
  unfold State.drain; split <;> rfl
@[simp] theorem State.drain_shEntry (s : State) : s.drain.shEntry = s.shEntry := by
  unfold State.drain; split <;> rfl
@[simp] theorem State.drain_ready (s : State) : s.drain.ready = s.ready := by
  unfold State.drain; split <;> rfl
@[simp] theorem State.drain_refused (s : State) : s.drain.refused = s.refused := by
  unfold State.drain; split <;> rfl
@[simp] theorem State.drain_issued (s : State) : s.drain.issued = s.issued := by
  unfold State.drain; split <;> rfl
@[simp] theorem State.drain_port (s : State) : s.drain.port = s.port := by
  unfold State.drain; split <;> rfl

@[simp] theorem State.advance_wiring (s : State) (inputs : List Input) : (s.advance inputs).wiring = s.drain.wiring := rfl
@[simp] theorem State.advance_cols (s : State) (inputs : List Input) : (s.advance inputs).cols = s.drain.cols := rfl
@[simp] theorem State.advance_rows (s : State) (inputs : List Input) : (s.advance inputs).rows = s.drain.rows := rfl
@[simp] theorem State.advance_csize (s : State) (inputs : List Input) : (s.advance inputs).csize = s.drain.csize := rfl
@[simp] theorem State.advance_shFunc (s : State) (inputs : List Input) : (s.advance inputs).shFunc = s.drain.shFunc := rfl
@[simp] theorem State.advance_shCtrl (s : State) (inputs : List Input) : (s.advance inputs).shCtrl = s.drain.shCtrl := rfl
@[simp] theorem State.advance_shEntry (s : State) (inputs : List Input) : (s.advance inputs).shEntry = s.drain.shEntry := rfl
@[simp] theorem State.advance_ready (s : State) (inputs : List Input) : (s.advance inputs).ready = s.drain.ready := rfl
@[simp] theorem State.advance_refused (s : State) (inputs : List Input) : (s.advance inputs).refused = s.drain.refused := rfl
@[simp] theorem State.advance_queue (s : State) (inputs : List Input) : (s.advance inputs).queue = s.drain.queue := rfl
@[simp] theorem State.advance_micro (s : State) (inputs : List Input) : (s.advance inputs).micro = s.drain.micro := rfl
@[simp] theorem State.advance_pins (s : State) (inputs : List Input) : (s.advance inputs).pins = s.drain.pins := rfl
@[simp] theorem State.advance_trace (s : State) (inputs : List Input) : (s.advance inputs).trace = s.drain.trace := rfl
@[simp] theorem State.advance_issued (s : State) (inputs : List Input) : (s.advance inputs).issued = s.drain.issued := rfl
@[simp] theorem State.advance_port (s : State) (inputs : List Input) : (s.advance inputs).port = inputs := rfl

/-! ## State.history -/

@[simp] theorem State.drain_history (s : State) : s.drain.history = s.history := by
  cases h : s.queue with
  | nil => rw [s.drain_nil h]
  | cons ev q => simp [s.drain_cons ev q h, State.history, h]

@[simp] theorem State.drained_history (s : State) : s.drained.history = s.history := by
  simp [State.history]

@[simp] theorem State.drained_trace_eq_history (s : State) : s.drained.trace = s.history := rfl

@[simp] theorem State.advance_history (s : State) (inputs : List Input) :
    (s.advance inputs).history = s.history := s.drain_history

@[simp] theorem State.accept_history (s : State) (es : List Event) : (s.accept es).history = s.history ++ es := by
  simp [State.history]

@[simp] theorem State.sendCtrl_history (s : State) (v : Byte) :
    (s.sendCtrl v).history = s.history ++ sendEvents s.wiring false (ctrlByte v) := by
  simp [State.history]

@[simp] theorem State.sendEntry_history (s : State) (v : Byte) :
    (s.sendEntry v).history = s.history ++ sendEvents s.wiring false (entryByte v) := by
  simp [State.history]

@[simp] theorem State.emit_history (s : State) (es : List Event) : (s.emit es).history = s.history ++ es := by
  simp [State.history]

end Sys2Proof.Machine
end

