-- ==== Sys2Proof/Laws/Events.lean ====
section
/-! SUPPORT. Lists of events: what concatenation does to replay, latches and waits, and what NIBBLE and SEND do to the pins
and to the latches. -/

namespace Sys2Proof.Machine

/-! ## Lists of events -/

@[simp] theorem replay_nil (w : Wiring) (b : PinBank) : replay w b [] = b := rfl

@[simp] theorem replay_cons (w : Wiring) (b : PinBank) (ev : Event) (es : List Event) :
    replay w b (ev :: es) = replay w (b.apply w ev) es := rfl

theorem replay_append (w : Wiring) (b : PinBank) (xs ys : List Event) :
    replay w b (xs ++ ys) = replay w (replay w b xs) ys := by
  induction xs generalizing b with
  | nil => rfl
  | cons ev es ih => exact ih _

@[simp] theorem latchesFrom_nil (w : Wiring) (b : PinBank) : latchesFrom w b [] = [] := rfl

theorem latchesFrom_append (w : Wiring) (b : PinBank) (xs ys : List Event) :
    latchesFrom w b (xs ++ ys) = latchesFrom w b xs ++ latchesFrom w (replay w b xs) ys := by
  induction xs generalizing b with
  | nil => rfl
  | cons ev es ih => simp [latchesFrom, ih]

theorem latches_append (w : Wiring) (xs ys : List Event) :
    latches w (xs ++ ys) = latches w xs ++ latchesFrom w (replay w PinBank.reset xs) ys :=
  latchesFrom_append w _ xs ys

theorem waits_append (xs ys : List Event) : waits (xs ++ ys) = waits xs ++ waits ys := by
  simp [waits]

theorem waitTotal_append (tm : Timing) (xs ys : List Event) :
    waitTotal tm (xs ++ ys) = waitTotal tm xs + waitTotal tm ys := by
  simp [waitTotal, waits_append]

/-! ## NIBBLE and SEND -/

@[simp] theorem nibbleEvents_length (w : Wiring) (v : Nat) : (nibbleEvents w v).length = 7 := rfl

@[simp] theorem sendEvents_length (w : Wiring) (rs : Bool) (b : Nat) : (sendEvents w rs b).length = 16 := rfl

@[simp] theorem dataEvents_length (w : Wiring) (bs : List Byte) : (dataEvents w bs).length = 16 * bs.length := by
  induction bs with
  | nil => rfl
  | cons b bs ih => simp [dataEvents, ih]; omega

theorem dataEvents_append (w : Wiring) (xs ys : List Byte) :
    dataEvents w (xs ++ ys) = dataEvents w xs ++ dataEvents w ys := by
  induction xs with
  | nil => rfl
  | cons b bs ih => simp [dataEvents, ih]

theorem dataEvents_eq_flatMap (w : Wiring) (bs : List Byte) :
    dataEvents w bs = bs.flatMap fun b => sendEvents w true b.toNat := by
  induction bs with
  | nil => rfl
  | cons b bs ih => simp [dataEvents, ih]

@[simp] theorem waits_nibbleEvents (w : Wiring) (v : Nat) : waits (nibbleEvents w v) = [] := rfl

@[simp] theorem waits_sendEvents (w : Wiring) (rs : Bool) (b : Nat) : waits (sendEvents w rs b) = [.cmd] := rfl

@[simp] theorem waits_dataEvents (w : Wiring) (bs : List Byte) :
    waits (dataEvents w bs) = List.replicate bs.length .cmd := by
  induction bs with
  | nil => rfl
  | cons b bs ih => simp [dataEvents, waits_append, ih, List.replicate_succ]

/-- The pins after a NIBBLE: the data lines carry bits 0–3, E is low. -/
def PinBank.afterNibble (b : PinBank) (v : Nat) : PinBank :=
  { b with
    e  := { b.e with level := .low }
    d0 := { b.d0 with level := Level.ofBool (v.testBit 0) }
    d1 := { b.d1 with level := Level.ofBool (v.testBit 1) }
    d2 := { b.d2 with level := Level.ofBool (v.testBit 2) }
    d3 := { b.d3 with level := Level.ofBool (v.testBit 3) } }

/-- The pins after a SEND: RS at its level, the data lines as the low nibble left them, E low. -/
def PinBank.afterSend (b : PinBank) (rs : Bool) (v : Nat) : PinBank :=
  { b.afterNibble v with rs := { b.rs with level := Level.ofBool rs } }

/-- R9: the six pins differ, pair by pair and both ways round. -/
theorem Wiring.distinct_ne {w : Wiring} (hw : w.Distinct) :
    w.rs ≠ w.e ∧ w.rs ≠ w.d0 ∧ w.rs ≠ w.d1 ∧ w.rs ≠ w.d2 ∧ w.rs ≠ w.d3 ∧
    w.e ≠ w.rs ∧ w.e ≠ w.d0 ∧ w.e ≠ w.d1 ∧ w.e ≠ w.d2 ∧ w.e ≠ w.d3 ∧
    w.d0 ≠ w.rs ∧ w.d0 ≠ w.e ∧ w.d0 ≠ w.d1 ∧ w.d0 ≠ w.d2 ∧ w.d0 ≠ w.d3 ∧
    w.d1 ≠ w.rs ∧ w.d1 ≠ w.e ∧ w.d1 ≠ w.d0 ∧ w.d1 ≠ w.d2 ∧ w.d1 ≠ w.d3 ∧
    w.d2 ≠ w.rs ∧ w.d2 ≠ w.e ∧ w.d2 ≠ w.d0 ∧ w.d2 ≠ w.d1 ∧ w.d2 ≠ w.d3 ∧
    w.d3 ≠ w.rs ∧ w.d3 ≠ w.e ∧ w.d3 ≠ w.d0 ∧ w.d3 ≠ w.d1 ∧ w.d3 ≠ w.d2 := by
  simp only [Wiring.Distinct, Wiring.pins, List.nodup_cons, List.mem_cons, List.not_mem_nil, or_false, not_or] at hw
  obtain ⟨⟨h1, h2, h3, h4, h5⟩, ⟨h6, h7, h8, h9⟩, ⟨h10, h11, h12⟩, ⟨h13, h14⟩, h15, -⟩ := hw
  simp only [ne_eq]
  refine ⟨h1, h2, h3, h4, h5, Ne.symm h1, h6, h7, h8, h9, Ne.symm h2, Ne.symm h6, h10, h11, h12, Ne.symm h3, Ne.symm h7,
    Ne.symm h10, h13, h14, Ne.symm h4, Ne.symm h8, Ne.symm h11, Ne.symm h13, h15, Ne.symm h5, Ne.symm h9, Ne.symm h12,
    Ne.symm h14, Ne.symm h15⟩

theorem replay_nibbleEvents {w : Wiring} (hw : w.Distinct) (b : PinBank) (v : Nat) :
    replay w b (nibbleEvents w v) = b.afterNibble v := by
  simp [nibbleEvents, PinBank.apply, PinState.apply, PinBank.afterNibble, Level.ofBool, Wiring.distinct_ne hw]

/-- NIBBLE latches once, from E low: the four lines it drove, and RS as it stands (R72, R74). -/
theorem latchesFrom_nibbleEvents {w : Wiring} (hw : w.Distinct) (b : PinBank) (he : b.e.level = .low) (v : Nat) :
    latchesFrom w b (nibbleEvents w v) = [(b.afterNibble v).sample] := by
  simp [nibbleEvents, latchesFrom, isLatch, PinBank.apply, PinState.apply, PinBank.afterNibble, PinBank.sample,
    Level.ofBool, Wiring.distinct_ne hw, he]

theorem replay_sendEvents {w : Wiring} (hw : w.Distinct) (b : PinBank) (rs : Bool) (v : Nat) :
    replay w b (sendEvents w rs v) = b.afterSend rs v := by
  simp [sendEvents, replay_append, replay_nibbleEvents hw, PinBank.apply, PinState.apply, PinBank.afterNibble,
    PinBank.afterSend, Wiring.distinct_ne hw]

theorem Level.bit?_ofBool (l : Bool) : (Level.ofBool l).bit? = some (bit l) := by cases l <;> rfl

/-- The low four bits of a number are the bits NIBBLE drives. -/
theorem testBit_eq_getLsbD (v i : Nat) (hi : i < 4) : v.testBit i = (BitVec.ofNat 4 v).getLsbD i := by
  rw [BitVec.getLsbD_ofNat]; simp [hi]

theorem bits_of_nibble : ∀ (rs : BitVec 1) (x : BitVec 4),
    rs ++ bit (x.getLsbD 3) ++ bit (x.getLsbD 2) ++ bit (x.getLsbD 1) ++ bit (x.getLsbD 0) = rs ++ x := by
  decide

/-- NIBBLE's latch is `rs:v[3:0]` (R38, R74). -/
theorem sample_afterNibble (b : PinBank) (v : Nat) (rs : BitVec 1) (h : b.rs.level.bit? = some rs) :
    (b.afterNibble v).sample = some (rs ++ BitVec.ofNat 4 v) := by
  simp only [PinBank.sample, PinBank.afterNibble, h, Level.bit?_ofBool,
    testBit_eq_getLsbD v _ (by decide : (0 : Nat) < 4), testBit_eq_getLsbD v _ (by decide : (1 : Nat) < 4),
    testBit_eq_getLsbD v _ (by decide : (2 : Nat) < 4), testBit_eq_getLsbD v _ (by decide : (3 : Nat) < 4)]
  exact congrArg some (bits_of_nibble rs _)

/-- SEND latches twice, from E low: the high nibble, then the low (R37, R73, R74). -/
theorem latchesFrom_sendEvents {w : Wiring} (hw : w.Distinct) (b : PinBank) (he : b.e.level = .low) (rs : Bool)
    (v : Nat) :
    latchesFrom w b (sendEvents w rs v) =
      [some (bit rs ++ BitVec.ofNat 4 (v >>> 4)), some (bit rs ++ BitVec.ofNat 4 v)] := by
  have hl : isLatch w b (.wr w.rs rs) = false := by simp [isLatch, Wiring.distinct_ne hw]
  have hb : (b.apply w (.wr w.rs rs)).e.level = .low ∧ (b.apply w (.wr w.rs rs)).rs.level.bit? = some (bit rs) := by
    simp [PinBank.apply, PinState.apply, Wiring.distinct_ne hw, he, Level.bit?_ofBool]
  simp only [sendEvents, latchesFrom, hl, latchesFrom_append, replay_nibbleEvents hw,
    latchesFrom_nibbleEvents hw _ hb.1]
  rw [latchesFrom_nibbleEvents hw _ rfl, sample_afterNibble _ _ _ hb.2,
    sample_afterNibble ((b.apply w (.wr w.rs rs)).afterNibble (v >>> 4)) v (bit rs) hb.2]
  simp [isLatch]

theorem PinBank.afterSend_settled (b : PinBank) (rs : Bool) (v : Nat) : (b.afterSend rs v).settled = true := by
  have h : (b.afterSend rs v).sample = some (bit rs ++ BitVec.ofNat 4 v) :=
    sample_afterNibble { b with rs := { b.rs with level := Level.ofBool rs } } v (bit rs) (Level.bit?_ofBool rs)
  simp [PinBank.settled, h]
  rfl

theorem PinBank.afterSend_allOutput (b : PinBank) (rs : Bool) (v : Nat) :
    (b.afterSend rs v).allOutput = b.allOutput := rfl

end Sys2Proof.Machine
end

