-- ==== Sys2Proof/Laws/History.lean ====
section
/-! SUPPORT. What a history is once INIT is in it, and that SENDs and waits keep it so, with the wire items they add. -/

namespace Sys2Proof.Machine

/-! ## Which pins a list of events configures -/

theorem replay_mode (w : Wiring) (b : PinBank) (es : List Event) (get : PinBank → PinState) (p : Pin)
    (hget : ∀ b ev, get (b.apply w ev) = (get b).apply p ev) :
    (get (replay w b es)).mode = .output ↔ (get b).mode = .output ∨ .cfg p ∈ es := by
  induction es generalizing b with
  | nil => simp
  | cons ev es ih =>
    rw [replay_cons, ih, hget]
    cases ev <;> simp [PinState.apply]
    · split <;> simp_all [eq_comm]
    · split <;> simp_all

/-- After a list of events every pin is an output exactly when the list configures every pin (R29). -/
theorem allOutput_replay_reset (w : Wiring) (es : List Event) :
    (replay w PinBank.reset es).allOutput = true ↔ ∀ p ∈ w.pins, .cfg p ∈ es := by
  have h := fun get p hget => replay_mode w PinBank.reset es get p hget
  have h1 := h PinBank.rs w.rs fun _ _ => rfl
  have h2 := h PinBank.e w.e fun _ _ => rfl
  have h3 := h PinBank.d0 w.d0 fun _ _ => rfl
  have h4 := h PinBank.d1 w.d1 fun _ _ => rfl
  have h5 := h PinBank.d2 w.d2 fun _ _ => rfl
  have h6 := h PinBank.d3 w.d3 fun _ _ => rfl
  simp [PinBank.reset] at h1 h2 h3 h4 h5 h6
  simp [PinBank.allOutput, Wiring.pins, PinBank.reset, h1, h2, h3, h4, h5, h6]

/-- The pins a list of events configures. -/
def configuredPins (es : List Event) : List Pin :=
  es.filterMap fun
    | .cfg p  => some p
    | .wr _ _ => none
    | .wait _ => none

theorem mem_configuredPins (p : Pin) (es : List Event) : p ∈ configuredPins es ↔ .cfg p ∈ es := by
  simp only [configuredPins, List.mem_filterMap]
  constructor
  · rintro ⟨ev, h, e⟩; cases ev <;> simp_all
  · exact fun h => ⟨_, h, rfl⟩

theorem writesConfigured_congr {done done' : List Pin} (h : ∀ p, p ∈ done ↔ p ∈ done') (es : List Event) :
    writesConfigured done es = writesConfigured done' es := by
  induction es generalizing done done' with
  | nil => rfl
  | cons ev es ih =>
    cases ev with
    | cfg p => exact ih (by simp [h])
    | wr p l =>
      simp only [writesConfigured, ih h]
      congr 1
      simp only [List.contains_eq_mem, decide_eq_decide]
      exact h p
    | wait t => exact ih h

theorem writesConfigured_append (done : List Pin) (xs ys : List Event) :
    writesConfigured done (xs ++ ys) =
      (writesConfigured done xs && writesConfigured (configuredPins xs ++ done) ys) := by
  induction xs generalizing done with
  | nil => rfl
  | cons ev es ih =>
    cases ev with
    | cfg p =>
      simp only [List.cons_append, writesConfigured, ih]
      congr 1
      apply writesConfigured_congr
      simp only [configuredPins, List.filterMap_cons, List.mem_append, List.mem_cons]
      exact fun q => by rw [or_assoc]; exact or_left_comm
    | wr p l => simp only [List.cons_append, writesConfigured, ih, Bool.and_assoc]; rfl
    | wait t => simp only [List.cons_append, writesConfigured, ih]; rfl

/-- Writes on owned pins only, after every owned pin was configured. -/
theorem writesConfigured_of_owned {w : Wiring} {done : List Pin} (hd : ∀ p ∈ w.pins, p ∈ done) (es : List Event)
    (h : ∀ ev ∈ es, ev.isOwned w = true) : writesConfigured done es = true := by
  induction es generalizing done with
  | nil => rfl
  | cons ev es ih =>
    have h' := fun ev hev => h ev (List.mem_cons_of_mem _ hev)
    have h0 := h ev List.mem_cons_self
    cases ev with
    | cfg p => exact ih (fun q hq => List.mem_cons_of_mem _ (hd q hq)) h'
    | wr p l =>
      simp only [writesConfigured, ih hd h', Bool.and_true]
      simp only [Event.isOwned, List.contains_eq_mem, decide_eq_true_eq] at h0 ⊢
      exact hd p h0
    | wait t => exact ih hd h'

theorem nibbleEvents_owned (w : Wiring) (v : Nat) : ∀ ev ∈ nibbleEvents w v, ev.isOwned w = true := by
  simp [nibbleEvents, Event.isOwned, Wiring.pins]

theorem sendEvents_owned (w : Wiring) (rs : Bool) (b : Nat) : ∀ ev ∈ sendEvents w rs b, ev.isOwned w = true := by
  simp [sendEvents, nibbleEvents, Event.isOwned, Wiring.pins]

/-! ## Wire items -/

theorem pairItems_append (xs ys : List (Option (BitVec 5))) (h : xs.length % 2 = 0) :
    pairItems (xs ++ ys) = pairItems xs ++ pairItems ys := by
  match xs with
  | [] => rfl
  | [_] => simp at h
  | a :: b :: rest =>
    simp only [List.cons_append, pairItems, List.cons.injEq, true_and]
    exact pairItems_append rest ys (by simp at h; omega)

/-- After the four nibbles, whole bytes of latches add whole items. -/
theorem itemsOfLatches_append (xs ys : List (Option (BitVec 5))) (h4 : 4 ≤ xs.length) (h : xs.length % 2 = 0) :
    itemsOfLatches (xs ++ ys) = itemsOfLatches xs ++ pairItems ys := by
  unfold itemsOfLatches
  rw [List.take_append_of_le_length h4, List.drop_append_of_le_length h4,
    pairItems_append _ _ (by simp; omega), List.append_assoc]

theorem bits_of_byte : ∀ (rs : BitVec 1) (hi lo : BitVec 4),
    byteItem (some (rs ++ hi)) (some (rs ++ lo)) = .byte (rs ++ (hi ++ lo)) := by
  intro rs hi lo
  unfold byteItem
  have h1 : (rs ++ hi).getLsbD 4 = (rs ++ lo).getLsbD 4 := by
    simp only [BitVec.getLsbD_append]; simp
  have h2 : (rs ++ hi ++ (rs ++ lo).extractLsb' 0 4 : BitVec 9) = rs ++ (hi ++ lo) := by
    revert rs hi lo; decide
  simp only [h1, if_true, h2]

theorem nibbles_of_byte (b : Nat) : BitVec.ofNat 4 (b >>> 4) ++ BitVec.ofNat 4 b = BitVec.ofNat 8 b := by
  apply BitVec.eq_of_toNat_eq
  rw [BitVec.toNat_append (BitVec.ofNat 4 (b >>> 4)) (BitVec.ofNat 4 b)]
  simp only [BitVec.toNat_ofNat, Nat.shiftRight_eq_div_pow]
  have := Nat.shiftLeft_add_eq_or_of_lt (show b % 16 < 2 ^ 4 by omega) (b / 16 % 16)
  norm_num at this ⊢
  rw [← this, Nat.shiftLeft_eq]
  omega

/-- The two latches of a SEND are the item it sends (R75). -/
theorem byteItem_of_send (rs : Bool) (b : Nat) :
    byteItem (some (bit rs ++ BitVec.ofNat 4 (b >>> 4))) (some (bit rs ++ BitVec.ofNat 4 b)) = sentItem rs b := by
  rw [bits_of_byte, nibbles_of_byte, sentItem]

/-! ## A history after INIT -/

/-- What a history is once INIT is in it. -/
structure Good (w : Wiring) (es : List Event) : Prop where
  distinct : w.Distinct
  outputs : (replay w PinBank.reset es).allOutput = true
  settled : (replay w PinBank.reset es).settled = true
  owned : ∀ ev ∈ es, ev.isOwned w = true
  configured : writesConfigured [] es = true
  known : ∀ x ∈ latches w es, x.isSome = true
  four : 4 ≤ (latches w es).length
  even : (latches w es).length % 2 = 0
  determined : ∀ x ∈ wireItems w es, x ≠ .undetermined

theorem Good.latches_send {w : Wiring} {es : List Event} (h : Good w es) (rs : Bool) (b : Nat) :
    latches w (es ++ sendEvents w rs b) =
      latches w es ++ [some (bit rs ++ BitVec.ofNat 4 (b >>> 4)), some (bit rs ++ BitVec.ofNat 4 b)] := by
  have he : (replay w PinBank.reset es).e.level = .low := by
    have := h.settled
    simp only [PinBank.settled, Bool.and_eq_true, decide_eq_true_eq] at this
    exact this.1
  rw [latches_append, latchesFrom_sendEvents h.distinct _ he]

theorem Good.items_send {w : Wiring} {es : List Event} (h : Good w es) (rs : Bool) (b : Nat) :
    wireItems w (es ++ sendEvents w rs b) = wireItems w es ++ [sentItem rs b] := by
  rw [wireItems, h.latches_send, itemsOfLatches_append _ _ h.four h.even]
  simp [pairItems, byteItem_of_send, wireItems]

theorem Good.send {w : Wiring} {es : List Event} (h : Good w es) (rs : Bool) (b : Nat) :
    Good w (es ++ sendEvents w rs b) where
  distinct := h.distinct
  outputs := by rw [replay_append, replay_sendEvents h.distinct]; exact h.outputs
  settled := by rw [replay_append, replay_sendEvents h.distinct]; exact PinBank.afterSend_settled _ _ _
  owned := by
    intro ev hev
    rcases List.mem_append.mp hev with hev | hev
    · exact h.owned ev hev
    · exact sendEvents_owned w rs b ev hev
  configured := by
    rw [writesConfigured_append, h.configured, Bool.true_and]
    apply writesConfigured_of_owned (w := w) _ _ (sendEvents_owned w rs b)
    intro p hp
    rw [List.append_nil, mem_configuredPins]
    exact (allOutput_replay_reset w es).mp h.outputs p hp
  known := by
    rw [h.latches_send]
    intro x hx
    rcases List.mem_append.mp hx with hx | hx
    · exact h.known x hx
    · simp at hx; rcases hx with rfl | rfl <;> rfl
  four := by rw [h.latches_send, List.length_append]; have := h.four; omega
  even := by rw [h.latches_send, List.length_append]; have := h.even; simp; omega
  determined := by
    rw [h.items_send]
    intro x hx
    rcases List.mem_append.mp hx with hx | hx
    · exact h.determined x hx
    · simp at hx; subst hx; simp [sentItem]

theorem Good.wait {w : Wiring} {es : List Event} (h : Good w es) (t : Delay) : Good w (es ++ [.wait t]) := by
  have hl : latches w (es ++ [.wait t]) = latches w es := by
    rw [latches_append]; simp [latchesFrom, isLatch]
  have hr : replay w PinBank.reset (es ++ [.wait t]) = replay w PinBank.reset es := by
    rw [replay_append]; rfl
  have hi : wireItems w (es ++ [.wait t]) = wireItems w es := by rw [wireItems, hl, wireItems]
  exact {
    distinct := h.distinct
    outputs := by rw [hr]; exact h.outputs
    settled := by rw [hr]; exact h.settled
    owned := by
      intro ev hev
      rcases List.mem_append.mp hev with hev | hev
      · exact h.owned ev hev
      · simp at hev; subst hev; rfl
    configured := by rw [writesConfigured_append, h.configured]; rfl
    known := by rw [hl]; exact h.known
    four := by rw [hl]; exact h.four
    even := by rw [hl]; exact h.even
    determined := by rw [hi]; exact h.determined }

theorem Good.items_wait {w : Wiring} (es : List Event) (t : Delay) :
    wireItems w (es ++ [.wait t]) = wireItems w es := by
  rw [wireItems, latches_append]; simp [latchesFrom, isLatch, wireItems]

theorem Good.data {w : Wiring} {es : List Event} (h : Good w es) (bs : List Byte) :
    Good w (es ++ dataEvents w bs) ∧
      wireItems w (es ++ dataEvents w bs) = wireItems w es ++ bs.map fun v => sentItem true v.toNat := by
  induction bs generalizing es with
  | nil => simpa [dataEvents] using h
  | cons b bs ih =>
    have := ih (h.send true b.toNat)
    rw [dataEvents, ← List.append_assoc]
    exact ⟨this.1, by rw [this.2, h.items_send]; simp⟩

/-- What INIT does before its first byte (R70). -/
theorem Good.wake {w : Wiring} (hw : w.Distinct) :
    Good w (configureEvents w ++ wakeEvents w) ∧
      wireItems w (configureEvents w ++ wakeEvents w) = [.nibble 0x3, .nibble 0x3, .nibble 0x3, .nibble 0x2] ∧
      latches w (configureEvents w ++ wakeEvents w) = [some 0x3, some 0x3, some 0x3, some 0x2] := by
  have hl : latches w (configureEvents w ++ wakeEvents w) = [some 0x3, some 0x3, some 0x3, some 0x2] := by
    simp [latches, configureEvents, wakeEvents, wakeNibble, commitNibble, nibbleEvents, latchesFrom, isLatch,
      PinBank.apply, PinState.apply, PinBank.reset, PinBank.sample, Level.ofBool, Level.bit?, Wiring.distinct_ne hw]
    decide
  have hr : replay w PinBank.reset (configureEvents w ++ wakeEvents w) =
      ⟨⟨.output, .low⟩, ⟨.output, .low⟩, ⟨.output, .low⟩, ⟨.output, .high⟩, ⟨.output, .low⟩, ⟨.output, .low⟩⟩ := by
    simp [configureEvents, wakeEvents, wakeNibble, commitNibble, nibbleEvents,
      PinBank.apply, PinState.apply, PinBank.reset, Level.ofBool, Wiring.distinct_ne hw]
    decide
  have hi : wireItems w (configureEvents w ++ wakeEvents w) = [.nibble 0x3, .nibble 0x3, .nibble 0x3, .nibble 0x2] := by
    rw [wireItems, hl]; rfl
  refine ⟨?_, hi, hl⟩
  exact {
    distinct := hw
    outputs := by rw [hr]; rfl
    settled := by rw [hr]; decide
    owned := by
      simp [configureEvents, wakeEvents, nibbleEvents, Event.isOwned, Wiring.pins]
    configured := by
      simp [configureEvents, wakeEvents, nibbleEvents, writesConfigured]
    known := by rw [hl]; simp
    four := by rw [hl]; simp
    even := by rw [hl]; simp
    determined := by rw [hi]; simp }

/-! ## What an operation adds -/

theorem Inv.good {s : State} (h : Inv s) (hr : s.ready = true) : Good s.wiring s.history where
  distinct := h.distinct
  outputs := (h.settles hr).1
  settled := (h.settles hr).2
  owned := h.owned
  configured := h.configured
  known := h.latches_known
  four := (h.latches_paired hr).1
  even := (h.latches_paired hr).2
  determined := h.items_determined

theorem Good.long {w : Wiring} {es : List Event} (h : Good w es) (b : Nat) :
    Good w (es ++ longCommandEvents w b) ∧
      wireItems w (es ++ longCommandEvents w b) = wireItems w es ++ [sentItem false b] := by
  rw [longCommandEvents, ← List.append_assoc]
  exact ⟨(h.send _ _).wait _, by rw [Good.items_wait, h.items_send]⟩

theorem Good.glyph {w : Wiring} {es : List Event} (h : Good w es) (index : Byte) (g : Glyph) :
    Good w (es ++ glyphEvents w index g) ∧
      wireItems w (es ++ glyphEvents w index g) =
        wireItems w es ++ (sentItem false (cgramByte index) :: (g.rows.map fun r => sentItem true r.toNat)
          ++ [sentItem false 0x80]) := by
  rw [glyphEvents, ← List.append_assoc, ← List.append_assoc]
  have h1 := h.send false (cgramByte index)
  have h2 := h1.data g.rows
  refine ⟨h2.1.send _ _, ?_⟩
  rw [h2.1.items_send, h2.2, h.items_send]
  simp [ddramByte]

theorem Good.init {w : Wiring} (hw : w.Distinct) (f : Byte) :
    Good w (initEvents w f) ∧
      wireItems w (initEvents w f) =
        [.nibble 0x3, .nibble 0x3, .nibble 0x3, .nibble 0x2, sentItem false (funcByte f),
          sentItem false 0x0C, sentItem false 0x06, sentItem false 0x01] := by
  obtain ⟨h0, hi, -⟩ := Good.wake hw
  have h1 := h0.send false (funcByte f)
  have h2 := h1.send false (ctrlByte initialCtrl)
  have h3 := h2.send false (entryByte initialEntry)
  have h4 := h3.long clearByte
  have e : initEvents w f = (configureEvents w ++ wakeEvents w) ++ sendEvents w false (funcByte f)
      ++ sendEvents w false (ctrlByte initialCtrl) ++ sendEvents w false (entryByte initialEntry)
      ++ longCommandEvents w clearByte := by
    simp [initEvents]
  rw [e]
  refine ⟨h4.1, ?_⟩
  rw [h4.2, h2.items_send, h1.items_send, h0.items_send, hi]
  rfl

end Sys2Proof.Machine
end

