-- ==== Sys2Proof/Laws/Ops.lean ====
section
/-! SUPPORT. The operations the meanings share: each gate and primitive with the one lemma that says all it can do, and the
inversion lemma of `exec`, which the provers cite instead of unfolding the meanings. -/

namespace Sys2Proof.Machine

/-! ## The gates -/

theorem State.ifRunning_eq_next {s t : State} {r : Result} :
    s.ifRunning r = .next t ↔ s.refused = none ∧ r = .next t := by
  unfold State.ifRunning
  cases s.refused <;> simp

theorem takeRefusal_eq_next {c : RefusalCode} {s t : State} :
    takeRefusal c s = .next t ↔ t = { s with refused := some c } := by
  simp [takeRefusal, eq_comm]

/-- What a gated operation can do: it goes on from an idle block, or is refused BUSY. -/
theorem State.ifIdle_eq_next {s t : State} {r : Result} :
    s.ifIdle r = .next t ↔
      s.refused = none ∧
        ((s.queue = [] ∧ r = .next t) ∨ (s.queue ≠ [] ∧ t = { s with refused := some .busy })) := by
  unfold State.ifIdle
  rw [State.ifRunning_eq_next]
  split <;> simp [takeRefusal_eq_next, *]

theorem State.ifReady_eq_next {s t : State} {r : Result} :
    s.ifReady r = .next t ↔
      s.refused = none ∧
        ((s.queue = [] ∧ s.ready = true ∧ r = .next t) ∨
         (s.queue = [] ∧ s.ready = false ∧ t = { s with refused := some .notReady }) ∨
         (s.queue ≠ [] ∧ t = { s with refused := some .busy })) := by
  unfold State.ifReady
  rw [State.ifIdle_eq_next]
  split <;> simp [takeRefusal_eq_next, *]

theorem State.ifUnready_eq_next {s t : State} {r : Result} :
    s.ifUnready r = .next t ↔
      s.refused = none ∧
        ((s.queue = [] ∧ s.ready = false ∧ r = .next t) ∨
         (s.queue = [] ∧ s.ready = true ∧ t = { s with refused := some .reinit }) ∨
         (s.queue ≠ [] ∧ t = { s with refused := some .busy })) := by
  unfold State.ifUnready
  rw [State.ifIdle_eq_next]
  split <;> simp [takeRefusal_eq_next, *]

theorem State.ifRunning_of_not_refused {s : State} (h : s.refused = none) (r : Result) : s.ifRunning r = r := by
  simp [State.ifRunning, h]

theorem State.ifRunning_of_refused {s : State} {c : RefusalCode} (h : s.refused = some c) (r : Result) :
    s.ifRunning r = .fault (.halted c) := by
  simp [State.ifRunning, h]

theorem State.ifIdle_of_idle {s : State} (h : s.Idle) (r : Result) : s.ifIdle r = r := by
  simp [State.ifIdle, State.ifRunning, h.1, h.2]

theorem State.ifIdle_of_busy {s : State} (h : s.refused = none) (hq : s.queue ≠ []) (r : Result) :
    s.ifIdle r = .next { s with refused := some .busy } := by
  cases hs : s.queue with
  | nil => exact absurd hs hq
  | cons ev q => simp [State.ifIdle, State.ifRunning, h, hs, takeRefusal]

theorem State.ifReady_of_ready {s : State} (h : s.Ready) (r : Result) : s.ifReady r = r := by
  simp [State.ifReady, State.ifIdle_of_idle h.1, h.2]

theorem State.ifReady_of_unready {s : State} (h : s.Idle) (hr : s.ready = false) (r : Result) :
    s.ifReady r = .next { s with refused := some .notReady } := by
  simp [State.ifReady, State.ifIdle_of_idle h, hr, takeRefusal]

theorem State.ifUnready_of_unready {s : State} (h : s.Idle) (hr : s.ready = false) (r : Result) :
    s.ifUnready r = r := by
  simp [State.ifUnready, State.ifIdle_of_idle h, hr]

theorem State.ifUnready_of_ready {s : State} (h : s.Ready) (r : Result) :
    s.ifUnready r = .next { s with refused := some .reinit } := by
  simp [State.ifUnready, State.ifIdle_of_idle h.1, h.2, takeRefusal]

theorem State.deliver_eq_next {s t : State} {rs : Bool} {b : Nat} :
    s.deliver rs b = .next t ↔ s.refused = none ∧ t = s.emit (sendEvents s.wiring rs b) := by
  rw [State.deliver, State.ifRunning_eq_next]
  simp [eq_comm]

theorem State.deliverNibble_eq_next {s t : State} {v : Nat} :
    s.deliverNibble v = .next t ↔ s.refused = none ∧ t = s.emit (nibbleEvents s.wiring v) := by
  rw [State.deliverNibble, State.ifRunning_eq_next]
  simp [eq_comm]

/-! ## What an accepted instruction does -/

/-- The state an operation leaves when it is accepted, and a wire item when it runs. -/
def accepted (i : Instr) (s : State) : State :=
  match i with
  | .init c r z =>
    ((s.withGeometry c r z).establish).accept
      (initEvents s.wiring (funcFlags (override r s.rows) (override z s.csize)))
  | .wrbyte v  => s.accept (sendEvents s.wiring true v.toNat)
  | .cmd code  => s.accept (sendEvents s.wiring false code.toNat)
  | .clear     => s.accept (longCommandEvents s.wiring clearByte)
  | .home      => s.accept (longCommandEvents s.wiring homeByte)
  | .on        => s.sendCtrl (setBits s.shCtrl maskD)
  | .off       => s.sendCtrl (clearBits s.shCtrl maskD)
  | .cursor en => s.sendCtrl (assignBits en s.shCtrl maskC)
  | .blink en  => s.sendCtrl (assignBits en s.shCtrl maskB)
  | .scrl      => s.accept (sendEvents s.wiring false (shiftByte true false))
  | .scrr      => s.accept (sendEvents s.wiring false (shiftByte true true))
  | .ltr       => s.sendEntry (setBits s.shEntry maskID)
  | .rtl       => s.sendEntry (clearBits s.shEntry maskID)
  | .justr     => s.sendEntry (setBits s.shEntry maskS)
  | .justl     => s.sendEntry (clearBits s.shEntry maskS)
  | .defglyph index bitmap => s.accept (glyphEvents s.wiring index bitmap)
  | .setcur column row =>
    match cursorAddress s.cols column row with
    | some addr => s.accept (sendEvents s.wiring false (ddramByte addr))
    | none      => s
  | .print text => s.accept (dataEvents s.wiring text)
  | .wClear         => s.emit (sendEvents s.wiring false clearByte)
  | .wHome dc       => s.emit (sendEvents s.wiring false (homeByte ||| dc.toNat))
  | .wEntry id sh   => s.emit (sendEvents s.wiring false (0x04 ||| id.toNat <<< 1 ||| sh.toNat))
  | .wDispctl d c b => s.emit (sendEvents s.wiring false (0x08 ||| d.toNat <<< 2 ||| c.toNat <<< 1 ||| b.toNat))
  | .wShift sc rl dc => s.emit (sendEvents s.wiring false (shiftByte sc rl ||| dc.toNat))
  | .wFunc dl n f dc =>
    s.emit (sendEvents s.wiring false (0x20 ||| dl.toNat <<< 4 ||| n.toNat <<< 3 ||| f.toNat <<< 2 ||| dc.toNat))
  | .wCgram addr    => s.emit (sendEvents s.wiring false (0x40 ||| addr.toNat))
  | .wDdram addr    => s.emit (sendEvents s.wiring false (ddramByte addr.toNat))
  | .wData v        => s.emit (sendEvents s.wiring true v.toNat)
  | .nWake          => s.emit (nibbleEvents s.wiring wakeNibble)
  | .nCommit4       => s.emit (nibbleEvents s.wiring commitNibble)

/-- Everything an instruction that answers a next state can have done: it was refused and only the mark changed, or it
is an operation an idle block in the right readiness accepted, or it is a wire item. -/
theorem exec_next_cases {i : Instr} {s t : State} (h : exec i s = .next t) :
    s.refused = none ∧
      ((∃ c, t = { s with refused := some c }) ∨
       (i.isOperation = true ∧ s.queue = [] ∧ s.ready = !i.isInit ∧ t = accepted i s ∧
         (∀ text, i = .print text → text.length ≤ Config.maxPayload) ∧
         (∀ column row, i = .setcur column row → (cursorAddress s.cols column row).isSome = true)) ∨
       (i.isOperation = false ∧ t = accepted i s)) := by
  cases i with
  | init c r z =>
    obtain ⟨h0, ⟨hq, hr, e⟩ | ⟨-, -, e⟩ | ⟨-, e⟩⟩ := State.ifUnready_eq_next.mp h
    · cases e; exact ⟨h0, .inr (.inl ⟨rfl, hq, by simp [hr, Instr.isInit], rfl, by simp, by simp⟩)⟩
    · exact ⟨h0, .inl ⟨_, e⟩⟩
    · exact ⟨h0, .inl ⟨_, e⟩⟩
  | setcur column row =>
    obtain ⟨h0, ⟨hq, hr, e⟩ | ⟨-, -, e⟩ | ⟨-, e⟩⟩ := State.ifReady_eq_next.mp h
    · cases ha : cursorAddress s.cols column row with
      | none => rw [ha] at e; exact ⟨h0, .inl ⟨_, takeRefusal_eq_next.mp e⟩⟩
      | some addr =>
        rw [ha] at e; cases e
        exact ⟨h0, .inr (.inl ⟨rfl, hq, by simp [hr, Instr.isInit], by simp [accepted, ha], by simp, by
          rintro _ _ ⟨⟩; simp [ha]⟩)⟩
    · exact ⟨h0, .inl ⟨_, e⟩⟩
    · exact ⟨h0, .inl ⟨_, e⟩⟩
  | print text =>
    obtain ⟨h0, ⟨hq, e⟩ | ⟨-, e⟩⟩ := State.ifIdle_eq_next.mp h
    · split at e
      · rename_i hl
        obtain ⟨-, ⟨-, hr, e⟩ | ⟨-, -, e⟩ | ⟨-, e⟩⟩ := State.ifReady_eq_next.mp e
        · cases e
          exact ⟨h0, .inr (.inl ⟨rfl, hq, by simp [hr, Instr.isInit], rfl, by rintro _ ⟨⟩; exact hl, by simp⟩)⟩
        · exact ⟨h0, .inl ⟨_, e⟩⟩
        · exact ⟨h0, .inl ⟨_, e⟩⟩
      · exact ⟨h0, .inl ⟨_, takeRefusal_eq_next.mp e⟩⟩
    · exact ⟨h0, .inl ⟨_, e⟩⟩
  | wClear | wHome | wEntry | wDispctl | wShift | wFunc | wCgram | wDdram | wData =>
    obtain ⟨h0, e⟩ := State.deliver_eq_next.mp h
    exact ⟨h0, .inr (.inr ⟨rfl, e⟩)⟩
  | nWake | nCommit4 =>
    obtain ⟨h0, e⟩ := State.deliverNibble_eq_next.mp h
    exact ⟨h0, .inr (.inr ⟨rfl, e⟩)⟩
  | _ =>
    obtain ⟨h0, ⟨hq, hr, e⟩ | ⟨-, -, e⟩ | ⟨-, e⟩⟩ := State.ifReady_eq_next.mp h
    · cases e; exact ⟨h0, .inr (.inl ⟨rfl, hq, by simp [hr, Instr.isInit], rfl, by simp, by simp⟩)⟩
    · exact ⟨h0, .inl ⟨_, e⟩⟩
    · exact ⟨h0, .inl ⟨_, e⟩⟩

/-! ## What an accepted instruction leaves alone -/

theorem accepted_wiring (i : Instr) (s : State) : (accepted i s).wiring = s.wiring := by
  cases i <;> (try rfl); simp only [accepted]; split <;> rfl

theorem accepted_pins (i : Instr) (s : State) : (accepted i s).pins = s.pins := by
  cases i <;> (try rfl); simp only [accepted]; split <;> rfl

theorem accepted_trace (i : Instr) (s : State) : (accepted i s).trace = s.trace := by
  cases i <;> (try rfl); simp only [accepted]; split <;> rfl

theorem accepted_port (i : Instr) (s : State) : (accepted i s).port = s.port := by
  cases i <;> (try rfl); simp only [accepted]; split <;> rfl

theorem accepted_issued (i : Instr) (s : State) : (accepted i s).issued = s.issued := by
  cases i <;> (try rfl); simp only [accepted]; split <;> rfl

theorem accepted_ready (i : Instr) (s : State) : (accepted i s).ready = (i.isInit || s.ready) := by
  cases i <;> (try rfl); simp only [accepted]; split <;> rfl

end Sys2Proof.Machine
end

