-- ==== Sys2Proof/Laws/PerInstr.lean ====
section
/-! SUPPORT. Statements made per instruction. `EncodesAsItsRow`: the encoder's words have the fixed bits of the
instruction's own row of spec/opcode_table.json, in that row's format. -/

namespace Sys2Proof.Laws.EncodesAsItsRow

open Sys2Proof.Machine

def formatOf : Encoded → Format
  | .op _ _   => .op32
  | .wire _   => .wire9
  | .nibble _ => .nib5

def bitsOf : Encoded → Nat
  | .op w _   => w.toNat
  | .wire w   => w.toNat
  | .nibble n => n.toNat

def Statement (i : Instr) : Prop :=
  ∃ r ∈ opRows ++ itemRows,
    r.mnemonic = i.mnemonic ∧ r.format = formatOf (encode i) ∧ r.hits (bitsOf (encode i)) = true

/-- The row, by its place in the table, and what is left to show of it. -/
theorem of_row {i : Instr} (k : Fin 29) (hm : ((opRows ++ itemRows)[k.1]'k.2).mnemonic = i.mnemonic)
    (hf : ((opRows ++ itemRows)[k.1]'k.2).format = formatOf (encode i))
    (h : ((opRows ++ itemRows)[k.1]'k.2).hits (bitsOf (encode i)) = true) : Statement i :=
  ⟨_, List.getElem_mem k.2, hm, hf, h⟩

/-- The fixed bits of a word with fields, for an operation's row. -/
theorem hits_packWord {r : TableRow} {o x y z : Byte} (a b c : Byte) (hm : BitVec.ofNat 32 r.mask = packWord 0xFF a b c)
    (hl : r.mask < 2 ^ 32) (hp : r.pattern = o.toNat) (hx : x &&& a = 0) (hy : y &&& b = 0) (hz : z &&& c = 0) :
    r.hits (packWord o x y z).toNat = true := by
  rw [hits_iff_fields r _ 0xFF a b c hm hl o hp, fieldOpc_pack, fieldA_pack, fieldB_pack, fieldC_pack]
  exact ⟨BitVec.and_allOnes, hx, hy, hz⟩

theorem init (cols rows : Option Byte) (csize : Option (BitVec 1)) : Statement (.init cols rows csize) :=
  of_row 0 rfl rfl
    (hits_packWord 0 0 0x8E rfl (by decide) rfl (by simp) (by simp)
    (initFlags_spec cols.isSome rows.isSome csize.isSome (csize.getD 0)).1)

theorem wrbyte (value : Byte) : Statement (.wrbyte value) :=
  of_row 1 rfl rfl
    (hits_packWord 0 0xFF 0xFF rfl (by decide) rfl (by simp) (by simp) (by simp))

theorem cmd (code : Byte) : Statement (.cmd code) :=
  of_row 2 rfl rfl
    (hits_packWord 0 0xFF 0xFF rfl (by decide) rfl (by simp) (by simp) (by simp))

theorem clear : Statement .clear :=
  of_row 3 rfl rfl rfl

theorem home : Statement .home :=
  of_row 4 rfl rfl rfl

theorem on : Statement .on :=
  of_row 5 rfl rfl rfl

theorem off : Statement .off :=
  of_row 6 rfl rfl rfl

theorem cursor (en : Bool) : Statement (.cursor en) :=
  of_row 7 rfl rfl (by revert en; decide)

theorem blink (en : Bool) : Statement (.blink en) :=
  of_row 8 rfl rfl (by revert en; decide)

theorem scrl : Statement .scrl :=
  of_row 9 rfl rfl rfl

theorem scrr : Statement .scrr :=
  of_row 10 rfl rfl rfl

theorem ltr : Statement .ltr :=
  of_row 11 rfl rfl rfl

theorem rtl : Statement .rtl :=
  of_row 12 rfl rfl rfl

theorem justr : Statement .justr :=
  of_row 13 rfl rfl rfl

theorem justl : Statement .justl :=
  of_row 14 rfl rfl rfl

theorem defglyph (index : Byte) (bitmap : Glyph) : Statement (.defglyph index bitmap) :=
  of_row 15 rfl rfl
    (hits_packWord 0 0xFF 0xFF rfl (by decide) rfl (by simp) (by simp) (by simp))

theorem setcur (column row : Byte) : Statement (.setcur column row) :=
  of_row 16 rfl rfl
    (hits_packWord 0 0 0xFF rfl (by decide) rfl (by simp) (by simp) (by simp))

theorem print (text : List Byte) : Statement (.print text) :=
  of_row 17 rfl rfl
    (hits_packWord 0 0 0xFF rfl (by decide) rfl (by simp) (by simp) (by simp))

theorem wClear : Statement .wClear :=
  of_row 18 rfl rfl rfl

theorem wHome (dc : BitVec 1) : Statement (.wHome dc) :=
  of_row 19 rfl rfl (by revert dc; decide)

theorem wEntry (id s : Bool) : Statement (.wEntry id s) :=
  of_row 20 rfl rfl (by revert id s; decide)

theorem wDispctl (d c b : Bool) : Statement (.wDispctl d c b) :=
  of_row 21 rfl rfl (by revert d c b; decide)

theorem wShift (sc rl : Bool) (dc : BitVec 2) : Statement (.wShift sc rl dc) :=
  of_row 22 rfl rfl (by revert sc rl dc; decide)

theorem wFunc (dl n f : Bool) (dc : BitVec 2) : Statement (.wFunc dl n f dc) :=
  of_row 23 rfl rfl (by revert dl n f dc; decide)

theorem wCgram (addr : BitVec 6) : Statement (.wCgram addr) :=
  of_row 24 rfl rfl (by revert addr; decide)

theorem wDdram (addr : BitVec 7) : Statement (.wDdram addr) :=
  of_row 25 rfl rfl (by revert addr; decide)

theorem wData (v : Byte) : Statement (.wData v) :=
  of_row 26 rfl rfl (by revert v; decide)

theorem nWake : Statement .nWake :=
  of_row 27 rfl rfl rfl

theorem nCommit4 : Statement .nCommit4 :=
  of_row 28 rfl rfl rfl

end Sys2Proof.Laws.EncodesAsItsRow
end

