-- ==== Sys2Proof/Laws/Step.lean ====
section
/-! SUPPORT. Which action a step takes. -/

namespace Sys2Proof.Machine

/-- What the next action is, from the state. -/
theorem schedule_cases (s : State) :
    (∃ c, s.refused = some c ∧ schedule s = .halt c) ∨
    (∃ a rest, s.port = ⟨a, .reset⟩ :: rest ∧ schedule s = .construct rest) ∨
    (s.refused = none ∧ ∃ a e rest, s.port = ⟨a, .encoded e⟩ :: rest ∧ a.isNow s.queue = true ∧
      schedule s = .present e rest) ∨
    (s.refused = none ∧ schedule s = .advance (tickInputs s.port)) := by
  cases hp : s.port with
  | nil => cases hr : s.refused <;> simp [schedule, hp, hr, tickInputs]
  | cons x rest =>
    obtain ⟨a, r⟩ := x
    cases r <;> cases hr : s.refused <;> simp [schedule, hp, hr, tickInputs]

end Sys2Proof.Machine
end

