-- ==== Sys2Proof/Tests/Slice0.lean ====
section
/-! SUPPORT. Tests. Expected results are the vectors of 95_test_vectors.md ("V<n>.<n>", "P<n>" there) or worked out by hand
from the rule a test names; after them one witness for every statement that has hypotheses. -/

namespace Sys2Proof.Tests

open Sys2Proof Sys2Proof.Machine

/-! ## Small states -/

def low : PinState := ⟨.output, .low⟩
def high : PinState := ⟨.output, .high⟩

/-- S0 of 95_test_vectors.md, with its trace left out: after INIT with no override, drained. -/
def s0 : State :=
  { State.reset with
    shFunc := 0x08, shCtrl := 0x04, shEntry := 0x02, ready := true, pins := ⟨low, low, high, low, low, low⟩ }

/-- The wire items one step delivers from the pins it finds, when the host presents these words. -/
def sent (e : Encoded) (s : State) : List WireItem :=
  match step (s.withInput e) with
  | .next t    => pairItems (latchesFrom t.wiring s.pins (t.queue.drop s.queue.length))
  | .fault _   => [.undetermined]
  | .refused _ => [.undetermined]

/-- The state one step leaves, when the host presents these words. -/
def stepOn (e : Encoded) (s : State) : Option State :=
  match step (s.withInput e) with
  | .next t    => some t
  | .fault _   => none
  | .refused _ => none

/-- The code one step refuses these words with. -/
def refusal (e : Encoded) (s : State) : Option RefusalCode := (stepOn e s).bind State.refused

/-- The three shadows and the number of events appended. -/
def left (e : Encoded) (s : State) : Option (Byte × Byte × Byte × Nat) :=
  (stepOn e s).map fun t => (t.shFunc, t.shCtrl, t.shEntry, t.queue.length)

/-- The P3 bitmap. -/
def heart : List Byte := [0x00, 0x0A, 0x1F, 0x1F, 0x1F, 0x0E, 0x04, 0x00]

/-! ## Well-formedness -/

/-- LEN has 16 bits (R49): 65535 bytes are well formed, 65536 are not. -/
theorem test_wellFormed_print_limit (text : List Byte) : WellFormed (.print text) ↔ text.length ≤ 65535 := by
  exact decide_eq_true_iff

theorem test_illFormed_print : ¬ WellFormed (.print (List.replicate 65536 0x20)) := by
  rw [test_wellFormed_print_limit, List.length_replicate]; decide

/-- R9: a repeated pin is no construction of the spec's. -/
theorem test_illFormed_wiring : ¬ Wiring.Distinct ⟨3, 1, 2, 3, 4, 5⟩ := by decide

theorem test_config_wiring_distinct : Config.wiring.Distinct := by decide

/-! ## Decoding: words of 95_test_vectors.md, or written out from 30_encoding.md -/

theorem test_decode_init : decode (.op 0x61010001 []) = .ok (.init none (some 1) (some 1)) := by decide
theorem test_decode_init_ignores_absent : decode (.op 0x00FFFF01 []) = .ok (.init none none none) := by decide
theorem test_decode_wrbyte : decode (.op 0x00004802 []) = .ok (.wrbyte 0x48) := by decide
theorem test_decode_cmd : decode (.op 0x00002803 []) = .ok (.cmd 0x28) := by decide
theorem test_decode_clear : decode (.op 0x00000004 []) = .ok .clear := by decide
theorem test_decode_home : decode (.op 0x00000005 []) = .ok .home := by decide
theorem test_decode_on : decode (.op 0x00000006 []) = .ok .on := by decide
theorem test_decode_off : decode (.op 0x00000007 []) = .ok .off := by decide
theorem test_decode_cursor : decode (.op 0x00000108 []) = .ok (.cursor true) := by decide
theorem test_decode_blink : decode (.op 0x00000009 []) = .ok (.blink false) := by decide
theorem test_decode_scrl : decode (.op 0x0000000A []) = .ok .scrl := by decide
theorem test_decode_scrr : decode (.op 0x0000000B []) = .ok .scrr := by decide
theorem test_decode_ltr : decode (.op 0x0000000C []) = .ok .ltr := by decide
theorem test_decode_rtl : decode (.op 0x0000000D []) = .ok .rtl := by decide
theorem test_decode_justr : decode (.op 0x0000000E []) = .ok .justr := by decide
theorem test_decode_justl : decode (.op 0x0000000F []) = .ok .justl := by decide
theorem test_decode_defglyph :
    decode (.op 0x00000310 heart) = .ok (.defglyph 3 ⟨0x00, 0x0A, 0x1F, 0x1F, 0x1F, 0x0E, 0x04, 0x00⟩) := by decide
theorem test_decode_setcur : decode (.op 0x00036411 []) = .ok (.setcur 100 3) := by decide
theorem test_decode_print : decode (.op 0x00000312 [0x00, 0x7F, 0xFF]) = .ok (.print [0x00, 0x7F, 0xFF]) := by decide
/-- LEN's high byte is B (R49): 0x0100 bytes, little end first. -/
theorem test_decode_print_length : fieldLen 0x00010012 = 256 := by decide
theorem test_decode_wClear : decode (.wire 0b000000001) = .ok .wClear := by decide
theorem test_decode_wHome : decode (.wire 0b000000010) = .ok (.wHome 0) := by decide
theorem test_decode_wHome_ignored_bit : decode (.wire 0b000000011) = .ok (.wHome 1) := by decide
theorem test_decode_wEntry : decode (.wire 0b000000110) = .ok (.wEntry true false) := by decide
theorem test_decode_wDispctl : decode (.wire 0b000001110) = .ok (.wDispctl true true false) := by decide
theorem test_decode_wShift : decode (.wire 0b000011000) = .ok (.wShift true false 0) := by decide
theorem test_decode_wFunc : decode (.wire 0b000101000) = .ok (.wFunc false true false 0) := by decide
theorem test_decode_wCgram : decode (.wire 0b001011000) = .ok (.wCgram 24) := by decide
theorem test_decode_wDdram : decode (.wire 0b010100101) = .ok (.wDdram 0x25) := by decide
theorem test_decode_wData : decode (.wire 0b101001000) = .ok (.wData 0x48) := by decide
theorem test_decode_nWake : decode (.nibble 0b00011) = .ok .nWake := by decide
theorem test_decode_nCommit4 : decode (.nibble 0b00010) = .ok .nCommit4 := by decide
/-- R65: the one byte with no class. -/
theorem test_decode_no_class : decode (.wire 0) = .error (.noWireClass 0) := by decide
theorem test_decode_no_nibble : decode (.nibble 0b00100) = .error (.noNibbleItem 4) := by decide
/-- A bit above the item is no item (log entry 8). -/
theorem test_decode_above_the_item : decode (.wire 0x201) = .error (.noWireClass 0x201) := by decide

/-- R39: the bytes of V5.25 arrive in this order. -/
theorem test_bytes_of_print : ofBytes [0x12, 0x02, 0x00, 0x00, 0x48, 0x69] = some (.op 0x00000212 [0x48, 0x69]) := by
  decide
theorem test_bytes_too_short : ofBytes [0x12, 0x02, 0x00] = none := by decide

/-- No two rows of the table can be hit by one word of their format: two patterns differ under the common mask. -/
theorem test_table_rows_disjoint :
    (opRows.Pairwise fun a b => a.pattern &&& (a.mask &&& b.mask) ≠ b.pattern &&& (a.mask &&& b.mask)) ∧
    (itemRows.Pairwise fun a b =>
      a.format = b.format → a.pattern &&& (a.mask &&& b.mask) ≠ b.pattern &&& (a.mask &&& b.mask)) := by
  decide

/-! ## Operations, from their words -/

/-- V1.3. -/
theorem test_init_geometry : (stepOn (.op 0x61010001 []) State.reset).map
    (fun t => ([t.cols, t.rows, t.shFunc, t.shCtrl, t.shEntry], t.csize, t.ready, t.queue.length)) =
      some ([16, 1, 0x04, 0x04, 0x02], 1, true, 105) := by decide
/-- §4 of 95_test_vectors.md, events 41–56 and 104–105. -/
theorem test_init_events : (stepOn (.op 0x00000001 []) State.reset).map
    (fun t => ((t.queue.drop 40).take 16, t.queue.drop 103)) =
      some ([.wr 0 false, .wr 2 false, .wr 3 true, .wr 4 false, .wr 5 false, .wr 1 false, .wr 1 true, .wr 1 false,
          .wr 2 false, .wr 3 false, .wr 4 false, .wr 5 true, .wr 1 false, .wr 1 true, .wr 1 false, .wait .cmd],
        [.wait .cmd, .wait .long]) := by decide
/-- V2.2. -/
theorem test_wrbyte : sent (.op 0x00004802 []) s0 = [.byte 0x148] := by decide
theorem test_wrbyte_shadows : left (.op 0x0000FF02 []) s0 = some (0x08, 0x04, 0x02, 16) := by decide
/-- V2.5, V2.6: no shadow, no long wait. -/
theorem test_cmd : sent (.op 0x00000F03 []) s0 = [.byte 0x00F] := by decide
theorem test_cmd_shadows : left (.op 0x00000103 []) s0 = some (0x08, 0x04, 0x02, 16) := by decide
/-- V3.1. -/
theorem test_clear : sent (.op 0x00000004 []) s0 = [.byte 0x001] := by decide
theorem test_clear_waits : (stepOn (.op 0x00000004 []) s0).map (fun t => (t.queue.length, t.queue.drop 15)) =
    some (17, [.wait .cmd, .wait .long]) := by decide
/-- V3.2. -/
theorem test_home : sent (.op 0x00000005 []) s0 = [.byte 0x002] := by decide
theorem test_home_waits : left (.op 0x00000005 []) s0 = some (0x08, 0x04, 0x02, 17) := by decide
/-- V3.12, its last operation: the display comes back with its cursor and blink. -/
theorem test_on : sent (.op 0x00000006 []) { s0 with shCtrl := 0x03 } = [.byte 0x00F] := by decide
/-- V3.4. -/
theorem test_off : sent (.op 0x00000007 []) s0 = [.byte 0x008] := by decide
theorem test_off_shadow : left (.op 0x00000007 []) s0 = some (0x08, 0x00, 0x02, 16) := by decide
/-- P7: a second CURSOR 1 does not toggle. -/
theorem test_cursor : sent (.op 0x00000108 []) { s0 with shCtrl := 0x06 } = [.byte 0x00E] := by decide
/-- P1, its last operation. -/
theorem test_cursor_off : left (.op 0x00000008 []) { s0 with shCtrl := 0x07 } = some (0x08, 0x05, 0x02, 16) := by decide
/-- V3.8. -/
theorem test_blink : sent (.op 0x00000109 []) s0 = [.byte 0x00D] := by decide
theorem test_blink_shadow : left (.op 0x00000109 []) s0 = some (0x08, 0x05, 0x02, 16) := by decide
/-- V4.1, V4.2. -/
theorem test_scrl : sent (.op 0x0000000A []) s0 = [.byte 0x018] := by decide
theorem test_scrr : sent (.op 0x0000000B []) s0 = [.byte 0x01C] := by decide
/-- V4.8, its third operation. -/
theorem test_ltr : sent (.op 0x0000000C []) { s0 with shEntry := 0x01 } = [.byte 0x007] := by decide
/-- V4.4. -/
theorem test_rtl : sent (.op 0x0000000D []) s0 = [.byte 0x004] := by decide
theorem test_rtl_shadow : left (.op 0x0000000D []) s0 = some (0x08, 0x04, 0x00, 16) := by decide
/-- V4.5. -/
theorem test_justr : left (.op 0x0000000E []) s0 = some (0x08, 0x04, 0x03, 16) := by decide
/-- V4.8, its last operation. -/
theorem test_justl : sent (.op 0x0000000F []) { s0 with shEntry := 0x03 } = [.byte 0x006] := by decide
/-- P3. -/
theorem test_defglyph : sent (.op 0x00000310 heart) s0 =
    [.byte 0x058, .byte 0x100, .byte 0x10A, .byte 0x11F, .byte 0x11F, .byte 0x11F, .byte 0x10E, .byte 0x104, .byte 0x100,
      .byte 0x080] := by decide
/-- V5.4: slot 11 is slot 3. -/
theorem test_defglyph_wraps : (sent (.op 0x00000B10 heart) s0).head? = some (.byte 0x058) := by decide
/-- P4, corrected (C1). -/
theorem test_setcur : sent (.op 0x00020511 []) s0 = [.byte 0x0A5] := by decide
/-- V5.23, the largest address. -/
theorem test_setcur_largest : sent (.op 0x0003FF11 []) { s0 with cols := 255 } = [.byte 0x0BE] := by decide
/-- P6. -/
theorem test_print : sent (.op 0x00000212 [0x48, 0x69]) s0 = [.byte 0x148, .byte 0x169] := by decide
/-- V5.26. -/
theorem test_print_empty : left (.op 0x00000012 []) s0 = some (0x08, 0x04, 0x02, 0) := by decide

/-! ## Wire items, from their words (R53–R63) -/

theorem test_wClear : sent (.wire 0x001) s0 = [.byte 0x001] := by decide
theorem test_wHome : sent (.wire 0x003) s0 = [.byte 0x003] := by decide
theorem test_wEntry : sent (.wire 0x005) s0 = [.byte 0x005] := by decide
theorem test_wDispctl : sent (.wire 0x00D) s0 = [.byte 0x00D] := by decide
theorem test_wShift : sent (.wire 0x017) s0 = [.byte 0x017] := by decide
theorem test_wFunc : sent (.wire 0x039) s0 = [.byte 0x039] := by decide
theorem test_wCgram : sent (.wire 0x058) s0 = [.byte 0x058] := by decide
theorem test_wDdram : sent (.wire 0x0D0) s0 = [.byte 0x0D0] := by decide
theorem test_wData : sent (.wire 0x148) s0 = [.byte 0x148] := by decide
/-- V2.1: seven events, one latch, at the level RS has. -/
theorem test_nWake : (stepOn (.nibble 0x03) s0).map (fun t => (t.queue.length, latchesFrom t.wiring s0.pins t.queue)) =
    some (7, [some 0x03]) := by decide
theorem test_nCommit4 : (stepOn (.nibble 0x02) s0).map (fun t => latchesFrom t.wiring s0.pins t.queue) =
    some [some 0x02] := by decide
/-- An item is no operation: it does not touch a shadow, and a queue with events is no reason to refuse it. -/
theorem test_wDispctl_not_busy : left (.wire 0x00F) { s0 with queue := [.wait .cmd] } = some (0x08, 0x04, 0x02, 17) := by
  decide

/-! ## Refusals (V1.10, V2.9, V3.15, V5.7, V5.8, V5.28–V5.30, V6.1–V6.17) -/

theorem test_refuse_not_ready : refusal (.op 0x00000011 []) State.reset = some .notReady := by decide
theorem test_refuse_reinit : refusal (.op 0x00000001 []) s0 = some .reinit := by decide
theorem test_refuse_first_unused_opcode : refusal (.op 0x00000013 []) s0 = some .badOpcode := by decide
theorem test_refuse_opcode_zero : refusal (.op 0x00000000 []) s0 = some .badOpcode := by decide
theorem test_refuse_last_opcode : refusal (.op 0x000000FF []) s0 = some .badOpcode := by decide
theorem test_refuse_init_reserved : refusal (.op 0x02000001 []) State.reset = some .badOperand := by decide
theorem test_refuse_init_reserved_top : refusal (.op 0x80000001 []) State.reset = some .badOperand := by decide
theorem test_refuse_wrbyte_operand : refusal (.op 0x00010002 []) s0 = some .badOperand := by decide
theorem test_refuse_clear_operand : refusal (.op 0x00000104 []) s0 = some .badOperand := by decide
theorem test_refuse_cursor_operand : refusal (.op 0x00000308 []) s0 = some .badOperand := by decide
theorem test_refuse_home_payload : refusal (.op 0x00000005 [0x78]) s0 = some .badPayload := by decide
theorem test_refuse_glyph_short : refusal (.op 0x00000310 [0x00, 0x0A]) s0 = some .badPayload := by decide
theorem test_refuse_glyph_long : refusal (.op 0x00000310 (heart ++ [0x00])) s0 = some .badPayload := by decide
theorem test_refuse_print_short : refusal (.op 0x00000312 [0x48, 0x69]) s0 = some .badPayload := by decide
theorem test_refuse_print_long : refusal (.op 0x00000212 [0x48, 0x69, 0x21]) s0 = some .badPayload := by decide
theorem test_refuse_row_four : refusal (.op 0x00040011 []) s0 = some .rowRange := by decide
theorem test_refuse_row_last : refusal (.op 0x00FF0011 []) s0 = some .rowRange := by decide
/-- V6.13: BAD_OPERAND outranks NOT_READY and ROW_RANGE. -/
theorem test_priority_operand : refusal (.op 0x01090911 []) State.reset = some .badOperand := by decide
/-- V6.14: NOT_READY outranks ROW_RANGE. -/
theorem test_priority_not_ready : refusal (.op 0x00090011 []) State.reset = some .notReady := by decide
/-- R100: BAD_OPERAND outranks BAD_PAYLOAD. -/
theorem test_priority_operand_payload : refusal (.op 0x00000104 [0x00]) s0 = some .badOperand := by decide
/-- V6.17: BUSY outranks every other cause. -/
theorem test_priority_busy : refusal (.op 0x000000FF []) { s0 with queue := [.wait .cmd] } = some .busy := by decide
/-- V6.2: a refused block accepts nothing, not even INIT. -/
theorem test_refused_accepts_nothing :
    step ({ State.reset with refused := some .notReady }.withInput (.op 0x00000001 [])) = .fault (.halted .notReady) := rfl
/-- The codes' numbers (R98). -/
theorem test_code_numbers : [RefusalCode.busy, .badOpcode, .badOperand, .badPayload, .notReady, .reinit, .rowRange].map
    RefusalCode.number = [1, 2, 3, 4, 5, 6, 7] := by decide

/-! ## Steps -/

/-- R28, R29: one event, on one pin. -/
theorem test_drain : step { s0 with queue := [.wr 1 true, .wr 1 false] } =
    .next { s0 with
      queue := [.wr 1 false], micro := 1, trace := [.wr 1 true], pins := ⟨low, high, high, low, low, low⟩ } := rfl
/-- R29: configuring a pin leaves its level as it was. -/
theorem test_drain_cfg : step { State.reset with queue := [.cfg 3] } =
    .next { State.reset with
      micro := 1, trace := [.cfg 3], pins := { PinBank.reset with d1 := ⟨.output, .unknown⟩ } } := rfl
/-- R111: a reset in the middle of an operation discards the queue. -/
theorem test_reset : step { s0 with queue := [.wait .cmd], port := [⟨.after 0, .reset⟩] } = .next State.reset := rfl
/-- R108: a blocking call waits for the queue to drain. -/
theorem test_blocking_waits : step { s0 with queue := [.wait .cmd], port := [⟨.drained, .encoded (.op 0x00000004 [])⟩] } =
    .next { s0 with micro := 1, trace := [.wait .cmd], port := [⟨.drained, .encoded (.op 0x00000004 [])⟩] } := rfl
theorem test_withFetchWord_item : step (State.reset.withFetchWord 16 0x039) = exec (.wFunc true true false 1)
    { State.reset with issued := some (.wire 0x039) } := rfl
theorem test_withFetchWord_glyph : decodeTableWord 32 0x00000710 = some (.defglyph 7 ⟨0, 0, 0, 0, 0, 0, 0, 0⟩) := by decide

/-! ## Assembler (R67, R68; the texts and words of 95_test_vectors.md) -/

/-- The words a line assembles to. -/
def words (line : String) : Option (List Encoded) := (assemble line).map (List.map encode)

theorem test_asm_init : words "INIT cols=20, rows=4   ; panel" = some [.op 0x30041401 []] := by decide
theorem test_asm_init_csize : words "begin csize=1" = some [.op 0x41000001 []] := by decide
theorem test_asm_cursor_default : words "CURSOR" = some [.op 0x00000108 []] := by decide
theorem test_asm_setcur : words "setCursor 0x05, 0b10" = some [.op 0x00020511 []] := by decide
theorem test_asm_setcur_row : words "SETCUR 0, 4" = none := by decide
theorem test_asm_glyph : words "DEFGLYPH 3, [0x00,0x0A,0x1F,0x1F,0x1F,0x0E,0x04,0x00]" = some [.op 0x00000310 heart] := by
  decide
theorem test_asm_print : words "PRINT \"Hi\"" = some [.op 0x00000212 [0x48, 0x69]] := by decide

/-! ## Witnesses: for every statement with hypotheses, values that meet all of them together -/

/-- A construction with other pins than the model's own, right after reset. -/
def start : State := { State.reset with wiring := ⟨12, 11, 5, 4, 3, 2⟩ }
/-- The same with INIT accepted and nothing performed yet. -/
def queued : State := accepted (.init none none none) start
/-- The same once INIT's queue has drained. -/
def booted : State := queued.drained

theorem exec_start : exec (.init none none none) start = .next queued := rfl

theorem inv_start : Inv start where
  distinct := by decide
  ctrl_reserved := by decide
  entry_reserved := by decide
  func_current := by decide
  index_bound := by decide
  pins_replay := rfl
  owned := by decide
  configured := rfl
  before_init := by decide
  settles := by decide
  latches_known := by decide
  latches_paired := by decide
  items_determined := by decide
  hosts_only := by decide

theorem inv_queued : Inv queued where
  distinct := by decide
  ctrl_reserved := by decide
  entry_reserved := by decide
  func_current := by decide
  index_bound := by decide
  pins_replay := rfl
  owned := by decide
  configured := rfl
  before_init := by decide
  settles := by decide
  latches_known := by decide
  latches_paired := by decide
  items_determined := by decide
  hosts_only := by decide

theorem inv_booted : Inv booted where
  distinct := by decide
  ctrl_reserved := by decide
  entry_reserved := by decide
  func_current := by decide
  index_bound := by decide
  pins_replay := rfl
  owned := by decide
  configured := rfl
  before_init := by decide
  settles := by decide
  latches_known := by decide
  latches_paired := by decide
  items_determined := by decide
  hosts_only := by decide

theorem booted_ready : booted.Ready := ⟨⟨rfl, rfl⟩, rfl⟩
theorem booted_mirrored : booted.Mirrored := by decide

theorem witness_DecodeOfEncodeIsIdentity :
    WellFormed (.print [0x48]) ∧ WellFormed (.init none (some 1) none) ∧ WellFormed (.wCgram 63) :=
  by decide

theorem witness_EncodeOfDecodeIsIdentity :
    decode (.op 0x00020511 []) = .ok (.setcur 5 2) ∧ (Instr.setcur 5 2).mnemonic ≠ "INIT" :=
  by decide

/-- Every bit that is not reserved. -/
theorem witness_InitOperandsFollowPresenceBits :
    (0x71 : Byte) &&& 0x8E = 0 :=
  by decide

theorem witness_TableWordsDecodeToTheirRow :
    (∃ r ∈ opRows, r.hits (0x00000310 : OpWord).toNat = true ∧ heart.length = payloadLength 0x00000310) ∧
    (∃ r ∈ itemRows, r.format = .wire9 ∧ r.hits (0x1FF : BitVec 9).toNat = true) ∧
    (∃ r ∈ itemRows, r.format = .nib5 ∧ r.hits (0x02 : BitVec 5).toNat = true) :=
  by decide

/-- Both clauses, at their boundaries. -/
theorem witness_UnusedOpcodesAreBadOpcode :
    fieldOpc 0xABCDEF00 = 0 ∧ 0x13 ≤ (fieldOpc 0x00000013).toNat ∧ 0x13 ≤ (fieldOpc 0x000000FF).toNat :=
  by decide

/-- V3.15. -/
theorem witness_ReservedOperandBitsAreBadOperand :
    ∃ r ∈ opRows, (fieldOpc 0x00000208).toNat = r.pattern ∧ r.hits (0x00000208 : OpWord).toNat = false :=
  by decide

/-- V5.7, V5.28 and V6.11 in kind: one for each clause. -/
theorem witness_WrongPayloadLengthIsBadPayload :
    (∃ r ∈ opRows, r.hits (0x00000310 : OpWord).toNat = true ∧ r.mnemonic = "DEFGLYPH" ∧ heart.tail.length ≠ 8) ∧
    (∃ r ∈ opRows, r.hits (0x00000312 : OpWord).toNat = true ∧ r.mnemonic = "PRINT" ∧ heart.length ≠ 0x00000312 / 256 % 65536) ∧
    (∃ r ∈ opRows, r.hits (0x00000005 : OpWord).toNat = true ∧ r.mnemonic = "HOME" ∧ heart.length ≠ 0) :=
  by decide

theorem witness_WireClassIsTheLeadingOne :
    (0x01 : Byte) ≠ 0 ∧ (0x80 : Byte) ≠ 0 :=
  by decide

theorem witness_SendLatchesHighNibbleFirst :
    s0.wiring.Distinct ∧ s0.pins.e.level = .low :=
  by decide

theorem witness_NibbleLatchesOnce :
    s0.wiring.Distinct ∧ s0.pins.e.level = .low ∧ s0.pins.rs.level.bit? = some 0 :=
  by decide

theorem witness_InitEstablishesTheShadows :
    start.Idle ∧ start.ready = false :=
  by decide

/-- Each clause: ready, before INIT, busy. -/
theorem witness_WrbyteSendsItsValue :
    booted.Ready ∧ (start.refused = none ∧ ¬ start.Ready) ∧ (queued.refused = none ∧ ¬ queued.Ready ∧ queued.queue ≠ []) ∧
    booted.wiring.Distinct ∧ booted.pins.e.level = .low :=
  by decide

theorem witness_CmdSendsItsCodeAndNoShadow :
    booted.Ready :=
  booted_ready

theorem witness_ClearAndHomeAddTheLongWait :
    booted.Ready :=
  booted_ready

theorem witness_OnAndOffSwitchTheDisplayBit :
    booted.Ready :=
  booted_ready

theorem witness_CursorAndBlinkAssignTheirBit :
    booted.Ready :=
  booted_ready

theorem witness_ScrollsAreStateless :
    booted.Ready :=
  booted_ready

theorem witness_EntryOperationsSwitchTheirBit :
    booted.Ready :=
  booted_ready

theorem witness_DefglyphWritesTheSlotAndReturns :
    booted.Ready :=
  booted_ready

/-- The first and the last row. -/
theorem witness_SetcurSendsLineBasePlusColumn :
    booted.Ready ∧ (0 : Byte).toNat < 4 ∧ (3 : Byte).toNat < 4 :=
  ⟨booted_ready, by decide⟩

/-- The empty text and the longest. -/
theorem witness_PrintSendsEachByteInOrder :
    booted.Ready ∧ ([] : List Byte).length ≤ 65535 ∧ (List.replicate 65535 (0x20 : Byte)).length ≤ 65535 :=
  ⟨booted_ready, Nat.zero_le _, by rw [List.length_replicate]⟩

theorem witness_ByteItemsAreSends :
    queued.refused = none ∧ start.refused = none :=
  by decide

theorem witness_NibbleItemsAreNibbles :
    queued.refused = none ∧ start.refused = none :=
  by decide

theorem witness_InitBeginsWithThreeWakesAndACommit :
    Inv start ∧ start.Idle ∧ start.ready = false :=
  ⟨inv_start, by decide⟩

/-- R96's largest address, the smallest, and the first row with none. -/
theorem witness_CursorAddressIsExactThenTruncated :
    cursorAddress 255 255 3 = some 0x23E ∧ cursorAddress 16 0 0 = some 0 ∧ cursorAddress 16 39 1 = some 0x67 ∧
      cursorAddress 16 5 2 = some 0x25 ∧ cursorAddress 16 0 4 = none :=
  by decide

theorem witness_PrintIsWrbytes :
    booted.Ready ∧ runOps ([0x48].map Instr.wrbyte) booted = some (accepted (.wrbyte 0x48) booted).drained ∧
    [(0x48 : Byte)].length ≤ 65535 :=
  ⟨booted_ready, rfl, by decide⟩

/-- One for each clause. -/
theorem witness_EventsWaitsAndLatchesPerOperation :
    (Inv start ∧ (Instr.init none none none).isOperation = true ∧ exec (.init none none none) start = .next queued ∧
      queued.refused = none) ∧
    (Inv booted ∧ Instr.clear.isOperation = true ∧ exec .clear booted = .next (accepted .clear booted) ∧
      (accepted .clear booted).refused = none) ∧
    (exec .home booted = .next (accepted .home booted) ∧ (accepted .home booted).refused = none) ∧
    (∀ g, exec (.defglyph 3 g) booted = .next (accepted (.defglyph 3 g) booted)) ∧
    (exec (.print []) booted = .next (accepted (.print []) booted) ∧ (accepted (.print []) booted).refused = none) ∧
    (exec .scrl booted = .next (accepted .scrl booted) ∧ (accepted .scrl booted).refused = none) :=
  ⟨⟨inv_start, rfl, rfl, rfl⟩, ⟨inv_booted, rfl, rfl, rfl⟩, ⟨rfl, rfl⟩, fun _ => rfl, ⟨rfl, rfl⟩, ⟨rfl, rfl⟩⟩

/-- R10's reference values, and the tightest ones. -/
theorem witness_ClearWaitsStrictlyLonger :
    (Config.referenceTiming 0).Valid ∧ Timing.Valid ⟨1, 1, 0, 0, 0, 1, 0⟩ :=
  by decide

theorem witness_OperationsDeliverTheirWireItems :
    (Inv start ∧ exec (.init none none none) start = .next queued ∧ queued.refused = none) ∧
    (Inv booted ∧ (Instr.setcur 5 2).isOperation = true ∧
      exec (.setcur 5 2) booted = .next (accepted (.setcur 5 2) booted) ∧ (accepted (.setcur 5 2) booted).refused = none) :=
  ⟨⟨inv_start, rfl, rfl⟩, inv_booted, rfl, rfl, rfl⟩

theorem witness_InitLeavesThePinsSettled :
    start.Idle ∧ start.ready = false ∧ start.wiring.Distinct :=
  by decide

theorem witness_DisplayControlFollowsTheLastToggles :
    booted.Ready ∧ booted.shCtrl = 0x04 ∧
    runOps [.blink true, .off] booted = some (accepted .off (accepted (.blink true) booted).drained).drained :=
  ⟨booted_ready, rfl, rfl⟩

theorem witness_OnlyTheOwnersWriteAShadow :
    exec .rtl booted = .next (accepted .rtl booted) ∧ (∀ a b c, Instr.rtl ≠ .init a b c) ∧ booted.ready = true :=
  ⟨rfl, by simp, rfl⟩

theorem witness_OnlyInitUsesTheCharacterSize :
    (exec (.init none none none) start = .next queued ∧ queued.refused = none) ∧ ∀ a b d, Instr.clear ≠ .init a b d :=
  ⟨⟨rfl, rfl⟩, by simp⟩

theorem witness_ShadowsMirrorWhatWasSent :
    Inv booted ∧ booted.Mirrored ∧ Instr.off.isOperation = true ∧ (∀ c, Instr.off ≠ .cmd c) ∧
    exec .off booted = .next (accepted .off booted) :=
  ⟨inv_booted, booted_mirrored, rfl, by simp, rfl⟩

theorem witness_ReadinessDecidesWhoIsAccepted :
    (Instr.clear.isOperation = true ∧ WellFormed .clear ∧ (∀ a b c, Instr.clear ≠ .init a b c) ∧ start.Idle ∧
      start.ready = false) ∧
    booted.Ready ∧
    (WellFormed (.setcur 0 3) ∧ (∀ a b c, Instr.setcur 0 3 ≠ .init a b c) ∧
      ∀ column row, Instr.setcur 0 3 = .setcur column row → row.toNat < 4) :=
  ⟨⟨rfl, rfl, by simp, by decide⟩, booted_ready, rfl, by simp, by rintro _ _ ⟨⟩; decide⟩

theorem witness_RowsBeyondTheTableAreRefused :
    booted.Ready ∧ 4 ≤ (4 : Byte).toNat ∧ 4 ≤ (255 : Byte).toNat :=
  ⟨booted_ready, by decide⟩

theorem witness_BusyOutranksEveryOtherCause :
    ({ queued with port := [⟨.after 0, .encoded (.op 0xFF [])⟩] } : State).queue ≠ [] ∧ queued.refused = none ∧
    Instr.clear.isOperation = true :=
  by decide

/-- V6.13. -/
theorem witness_EncodingIsCheckedBeforeTheState :
    start.Idle ∧ decode (.op 0x01090911 []) = .error (.code .badOperand) ∧
    ({ start with port := [⟨.drained, .encoded (.op 0x01090911 [])⟩] } : State).Idle :=
  by decide

theorem witness_RefusalChangesOnlyTheMark :
    exec .clear start = .next { start with refused := some .notReady } :=
  rfl

theorem witness_RefusedBlockHasNoStep :
    ({ start with refused := some .busy } : State).refused = some .busy ∧
    ∀ a rest, ({ start with refused := some .busy } : State).port ≠ ⟨a, .reset⟩ :: rest :=
  ⟨rfl, by simp [start, State.reset]⟩

theorem witness_OnlyResetClearsARefusal :
    step { start with refused := some .busy, port := [⟨.after 7, .reset⟩] } = .next start :=
  rfl

/-- An operation on an idle block, and an item on a busy one. -/
theorem witness_StepRunsTheDecodedInstruction :
    (booted.refused = none ∧ booted.queue = [] ∧ decode (.op 0x00000004 []) = .ok .clear) ∧
    (queued.refused = none ∧ queued.queue ≠ [] ∧ tableWord 16 0x039 = some (.wire 0x039) ∧
      decode (.wire 0x039) = .ok (.wFunc true true false 1)) :=
  by decide

theorem witness_DrainStepPerformsTheHeadEvent :
    queued.refused = none ∧ queued.port = [] ∧ queued.queue = .cfg queued.wiring.rs :: queued.queue.tail ∧
    queued.wiring.Distinct :=
  ⟨rfl, rfl, rfl, by decide⟩

theorem witness_QueueDrainsCompletely :
    queued.refused = none ∧ (∀ x ∈ queued.port.head?, x.arrival = .drained) ∧ queued.queue.length = 105 :=
  by decide

theorem witness_EventsKeepTheirOrder :
    step queued = .next queued.drain ∧ ∀ rest, schedule queued ≠ .construct rest :=
  ⟨rfl, by intro rest h; cases h⟩

theorem witness_ResetReconstructs :
    ({ queued with port := [⟨.after 0, .reset⟩] } : State).port = ⟨.after 0, .reset⟩ :: [] :=
  rfl

theorem witness_ReadyIsSetOnceAndKept :
    step (start.withInput (.op 0x00000001 [])) = .next { queued with issued := some (.op 0x00000001 []) } ∧
    start.ready = false ∧ queued.ready = true ∧
    ∀ rest, schedule (start.withInput (.op 0x00000001 [])) ≠ .construct rest :=
  ⟨rfl, rfl, rfl, by intro rest h; cases h⟩

theorem witness_BlockingHostRunsOperationsInTurn :
    (∀ i ∈ [Instr.init none none none, .clear], WellFormed i ∧ i.isOperation = true) ∧ start.Idle ∧
    runOps [.init none none none, .clear] start = some (accepted .clear booted).drained :=
  ⟨by decide, by decide, rfl⟩

theorem witness_StepKeepsTheInvariant :
    (Inv queued ∧ step queued = .next queued.drain) ∧
    (Inv { booted with port := [⟨.drained, .encoded (.op 0x00000004 [])⟩] }) :=
  ⟨⟨inv_queued, rfl⟩, { inv_booted with hosts_only := by decide }⟩

end Sys2Proof.Tests
end

section
/-! PROOFS. Durations (00_scope.md R10): which delays CLEAR, HOME, one SEND and INIT's wake sequence wait, in order and as
a sum for any `Timing`. -/

namespace Sys2Proof.Machine

/-! ## The delays waited -/

/-- R79, R80: the wait of the one SEND, then the long one. -/
@[simp] theorem waits_longCommandEvents (w : Wiring) (b : Nat) : waits (longCommandEvents w b) = [.cmd, .long] := by
  rw [longCommandEvents, waits_append, waits_sendEvents]
  rfl

/-- R70: each wake nibble is followed by its own wait, the commit nibble by the commit wait. -/
@[simp] theorem waits_wakeEvents (w : Wiring) : waits (wakeEvents w) = [.wake1, .wake2, .wake3, .commit] := rfl

/-! ## Their sums -/

@[simp] theorem waitTotal_sendEvents (tm : Timing) (w : Wiring) (rs : Bool) (b : Nat) :
    waitTotal tm (sendEvents w rs b) = tm.cmd := by
  simp [waitTotal, Timing.ms]

@[simp] theorem waitTotal_longCommandEvents (tm : Timing) (w : Wiring) (b : Nat) :
    waitTotal tm (longCommandEvents w b) = tm.cmd + tm.long := by
  simp [waitTotal, Timing.ms]

/-- Settles O35: CLEAR and HOME wait `T_CMD + T_LONG`, one SEND waits `T_CMD`, and `T_LONG` is positive because R10 has it
above `T_CMD`. -/
theorem clearWaitsStrictlyLonger : Obligations.ClearWaitsStrictlyLonger := by
  unfold Obligations.ClearWaitsStrictlyLonger
  intro tm w b c rs ⟨hwake12, hwake23, hwake13, hlong⟩
  have hpos : 0 < tm.long := Nat.zero_lt_of_lt hlong
  rw [waitTotal_longCommandEvents, waitTotal_sendEvents, waits_wakeEvents]
  exact ⟨Nat.le_add_left _ _, Nat.lt_add_of_pos_right hpos, rfl, hwake12, hwake23, hwake13⟩

end Sys2Proof.Machine
end

section
/-! PROOFS. What one step and one instruction can do, said once, and the state family's statements about steps: reset,
arrival of an input, drain, order of events, readiness (10_state.md R26–R28, R33; 20_memory.md R44). -/

namespace Sys2Proof.Machine

/-! ## What an instruction can do -/

theorem isInit_iff {i : Instr} : i.isInit = true ↔ ∃ a b c, i = .init a b c := by
  cases i <;> simp [Instr.isInit]

theorem isInit_eq_false_iff {i : Instr} : i.isInit = false ↔ ∀ a b c, i ≠ .init a b c := by
  cases i <;> simp [Instr.isInit]

/-- A wire item is no INIT. -/
theorem isInit_of_not_operation {i : Instr} (hitem : i.isOperation = false) : i.isInit = false := by
  cases i
  case init => cases hitem
  all_goals rfl

/-- An instruction that answers a next state set the refusal mark and nothing else, or did its whole effect. -/
theorem exec_eq_mark_or_accepted {i : Instr} {s t : State} (h : exec i s = .next t) :
    (∃ c, t = { s with refused := some c }) ∨ t = accepted i s := by
  obtain ⟨-, hmark | ⟨-, -, -, ht, -⟩ | ⟨-, ht⟩⟩ := exec_next_cases h
  · exact .inl hmark
  · exact .inr ht
  · exact .inr ht

/-- No instruction writes the wiring, the pins, the trace or the host's fields (R18, R28, R29). -/
theorem exec_frame {i : Instr} {s t : State} (h : exec i s = .next t) :
    t.wiring = s.wiring ∧ t.pins = s.pins ∧ t.trace = s.trace ∧ t.port = s.port ∧ t.issued = s.issued := by
  obtain ⟨c, rfl⟩ | rfl := exec_eq_mark_or_accepted h
  · exact ⟨rfl, rfl, rfl, rfl, rfl⟩
  · exact ⟨accepted_wiring i s, accepted_pins i s, accepted_trace i s, accepted_port i s, accepted_issued i s⟩

/-- An accepted instruction only adds to the end of the queue (R14, R44). -/
theorem accepted_queue (i : Instr) (s : State) : ∃ es, (accepted i s).queue = s.queue ++ es := by
  cases i
  case setcur column row =>
    cases ha : cursorAddress s.cols column row with
    | none => exact ⟨[], by simp [accepted, ha]⟩
    | some addr =>
      exact ⟨sendEvents s.wiring false (ddramByte addr), by simp only [accepted, ha, State.accept_queue]⟩
  all_goals exact ⟨_, rfl⟩

theorem exec_history {i : Instr} {s t : State} (h : exec i s = .next t) : ∃ es, t.history = s.history ++ es := by
  obtain ⟨c, rfl⟩ | rfl := exec_eq_mark_or_accepted h
  · exact ⟨[], (List.append_nil _).symm⟩
  · obtain ⟨es, hq⟩ := accepted_queue i s
    exact ⟨es, by simp [State.history, accepted_trace, hq]⟩

/-! ## What a step can do -/

/-- An input that reaches the block is refused, or the instruction it stands for runs. -/
theorem present_eq_next {s t : State} {e : Encoded} {rest : List Input} (h : s.present e rest = .next t) :
    (∃ c, t = { s.take e rest with refused := some c }) ∨
    ∃ i, decode e = .ok i ∧ exec i (s.take e rest) = .next t := by
  unfold State.present at h
  cases hf : fetch e (s.take e rest) with
  | ok i =>
    rw [hf] at h
    unfold fetch at hf
    split at hf
    · cases hf
    · exact .inr ⟨i, hf, h⟩
  | error r =>
    rw [hf] at h
    cases r with
    | code c => exact .inl ⟨c, takeRefusal_eq_next.mp h⟩
    | noWireClass w => cases h
    | noNibbleItem n => cases h

/-- Everything a step that answers a next state can have done (R28): a reset, the arrival of an input, or one drain
step. -/
theorem step_next_cases {s t : State} (h : step s = .next t) :
    (∃ a rest, s.port = ⟨a, .reset⟩ :: rest ∧ schedule s = .construct rest ∧ t = s.construct rest) ∨
    (∃ a e rest, s.port = ⟨a, .encoded e⟩ :: rest ∧ schedule s = .present e rest ∧ s.present e rest = .next t) ∨
    t = s.advance (tickInputs s.port) := by
  unfold step at h
  obtain ⟨c, -, hs⟩ | ⟨a, rest, hp, hs⟩ | ⟨-, a, e, rest, hp, -, hs⟩ | ⟨-, hs⟩ := schedule_cases s
  all_goals rw [hs] at h
  · cases h
  · cases h; exact .inl ⟨a, rest, hp, hs, rfl⟩
  · exact .inr (.inl ⟨a, e, rest, hp, hs, h⟩)
  · cases h; exact .inr (.inr rfl)

theorem drain_trace_cases (s : State) : s.drain.trace = s.trace ∨ ∃ ev, s.drain.trace = s.trace ++ [ev] := by
  cases hq : s.queue with
  | nil => exact .inl (by rw [s.drain_nil hq])
  | cons ev q => exact .inr ⟨ev, by rw [s.drain_cons ev q hq]⟩

/-- Settles O53: an arriving input adds to the queue's end, a drain step moves the boundary between trace and queue. -/
theorem eventsKeepTheirOrder : Obligations.EventsKeepTheirOrder := by
  unfold Obligations.EventsKeepTheirOrder
  intro s t h hreset
  obtain ⟨-, rest, -, hs, -⟩ | ⟨-, e, rest, -, -, hpresent⟩ | rfl := step_next_cases h
  · exact absurd hs (hreset rest)
  · suffices hkeeps : (∃ es, t.history = s.history ++ es) ∧ t.trace = s.trace by
      obtain ⟨hhist, htrace⟩ := hkeeps
      exact ⟨hhist, ⟨[], by simp [htrace]⟩, by simp [htrace]⟩
    obtain ⟨c, rfl⟩ | ⟨i, -, hexec⟩ := present_eq_next hpresent
    · exact ⟨⟨[], (List.append_nil _).symm⟩, rfl⟩
    · obtain ⟨-, -, htrace, -⟩ := exec_frame hexec
      obtain ⟨es, hes⟩ := exec_history hexec
      exact ⟨⟨es, hes⟩, htrace⟩
  · refine ⟨⟨[], by simp⟩, ?_⟩
    obtain htrace | ⟨ev, htrace⟩ := drain_trace_cases s
    · exact ⟨⟨[], by simp [htrace]⟩, by simp [htrace]⟩
    · exact ⟨⟨[ev], htrace⟩, by simp [htrace]⟩

/-! ## Readiness -/

/-- An instruction keeps `ready`, and sets it only as an accepted INIT (R26, R99). -/
theorem exec_ready {i : Instr} {s t : State} (h : exec i s = .next t) :
    (s.ready = true → t.ready = true) ∧
    (s.ready = false → t.ready = true → (∃ a b c, i = .init a b c) ∧ t.refused = none) := by
  obtain ⟨href, ⟨c, rfl⟩ | ⟨-, -, hinit, rfl, -⟩ | ⟨hitem, rfl⟩⟩ := exec_next_cases h
  · exact ⟨id, fun hf ht => by simp [hf] at ht⟩
  · refine ⟨fun hr => by simp [accepted_ready, hr], fun hf _ => ?_⟩
    obtain ⟨a, b, c, rfl⟩ := isInit_iff.mp (by simpa [hf] using hinit)
    exact ⟨⟨a, b, c, rfl⟩, href⟩
  · have hnot := isInit_of_not_operation hitem
    exact ⟨fun hr => by simp [accepted_ready, hr], fun hf ht => by simp [accepted_ready, hnot, hf] at ht⟩

/-- Settles O55: a drain step and a refusal leave `ready` and the wiring as they are. -/
theorem readyIsSetOnceAndKept : Obligations.ReadyIsSetOnceAndKept := by
  unfold Obligations.ReadyIsSetOnceAndKept
  intro s t h hreset
  obtain ⟨-, rest, -, hs, -⟩ | ⟨-, e, rest, -, hs, hpresent⟩ | rfl := step_next_cases h
  · exact absurd hs (hreset rest)
  · obtain ⟨c, rfl⟩ | ⟨i, hdec, hexec⟩ := present_eq_next hpresent
    · exact ⟨rfl, id, fun hf ht => by simp [hf] at ht⟩
    · obtain ⟨hwiring, -⟩ := exec_frame hexec
      obtain ⟨hkept, hset⟩ := exec_ready hexec
      refine ⟨hwiring, hkept, fun hf ht => ?_⟩
      obtain ⟨⟨a, b, c, rfl⟩, href⟩ := hset hf ht
      exact ⟨e, rest, a, b, c, hs, hdec, href⟩
  · exact ⟨by simp, by simp, fun hf ht => by simp [hf] at ht⟩

/-! ## Arrival and drain -/

theorem schedule_of_arrived {s : State} {a : Arrival} {e : Encoded} {rest : List Input} (href : s.refused = none)
    (hp : s.port = ⟨a, .encoded e⟩ :: rest) (hnow : a.isNow s.queue = true) : schedule s = .present e rest := by
  simp [schedule, hp, href, hnow]

/-- With no input that cuts in, the block drains and the port stays as it is (R28, R108). -/
theorem step_of_queued {s : State} (href : s.refused = none) (hport : ∀ x ∈ s.port.head?, x.arrival = .drained)
    (hq : s.queue ≠ []) : step s = .next s.drain := by
  have hstep : ∀ inputs, schedule s = .advance inputs → inputs = s.port → step s = .next s.drain := by
    rintro inputs hs rfl
    have hadvance : s.advance s.port = s.drain := by
      conv_lhs => rw [← State.drain_port s]
      rfl
    rw [step, hs, ← hadvance]
  cases hp : s.port with
  | nil => exact hstep [] (by simp [schedule, hp, href]) hp.symm
  | cons x rest =>
    obtain ⟨a, r⟩ := x
    obtain rfl : a = .drained := hport ⟨a, r⟩ (by simp [hp])
    refine hstep (tickInputs s.port) ?_ (by rw [hp]; rfl)
    cases r <;> simp [schedule, hp, href, Arrival.isNow, hq]

theorem drain_drained (s : State) : s.drain.drained = s.drained := by
  cases hq : s.queue with
  | nil => rw [s.drain_nil hq]
  | cons ev q =>
    rw [s.drain_cons ev q hq]
    simp [State.drained, hq, Nat.add_comm, Nat.add_left_comm]

theorem drained_of_idle {s : State} (hq : s.queue = []) : s.drained = s := by
  obtain ⟨⟩ := s
  subst hq
  simp [State.drained]

/-- One step of a run, where the step answers a next state. -/
theorem run_succ_of_next {n : Nat} {s t : State} (h : step s = .next t) :
    Host.Core.run core (n + 1) s = Host.Core.run core n t := by
  simp only [Host.Core.run, core, h]

/-- Settles O52, by induction on the number of pending events. -/
theorem queueDrainsCompletely : Obligations.QueueDrainsCompletely := by
  unfold Obligations.QueueDrainsCompletely
  intro s href hport
  generalize hn : s.queue.length = n
  induction n generalizing s with
  | zero =>
    have hq : s.queue = [] := List.eq_nil_of_length_eq_zero hn
    rw [drained_of_idle hq]
    rfl
  | succ n ih =>
    have hq : s.queue ≠ [] := by rintro hq; simp [hq] at hn
    have hlen : s.drain.queue.length = n := by
      obtain ⟨ev, q, hcons⟩ := List.exists_cons_of_ne_nil hq
      rw [s.drain_cons ev q hcons]
      simpa [hcons] using hn
    have hrest := ih s.drain (by simpa using href) (by simpa using hport) hlen
    rw [drain_drained] at hrest
    rw [← hrest, run_succ_of_next (step_of_queued href hport hq)]

/-- R29: configuring an owned pin makes that pin an output and changes nothing else. -/
theorem apply_cfg_owned {w : Wiring} (hw : w.Distinct) (b : PinBank) :
    b.apply w (.cfg w.e) = { b with e := { b.e with mode := .output } } ∧
    b.apply w (.cfg w.rs) = { b with rs := { b.rs with mode := .output } } ∧
    b.apply w (.cfg w.d0) = { b with d0 := { b.d0 with mode := .output } } ∧
    b.apply w (.cfg w.d1) = { b with d1 := { b.d1 with mode := .output } } ∧
    b.apply w (.cfg w.d2) = { b with d2 := { b.d2 with mode := .output } } ∧
    b.apply w (.cfg w.d3) = { b with d3 := { b.d3 with mode := .output } } := by
  simp [PinBank.apply, PinState.apply, Wiring.distinct_ne hw]

/-- R29: writing an owned pin gives that pin its level and changes nothing else. -/
theorem apply_wr_owned {w : Wiring} (hw : w.Distinct) (b : PinBank) :
    (∀ l, b.apply w (.wr w.e l) = { b with e := { b.e with level := Level.ofBool l } }) ∧
    (∀ l, b.apply w (.wr w.rs l) = { b with rs := { b.rs with level := Level.ofBool l } }) ∧
    (∀ l, b.apply w (.wr w.d0 l) = { b with d0 := { b.d0 with level := Level.ofBool l } }) ∧
    (∀ l, b.apply w (.wr w.d1 l) = { b with d1 := { b.d1 with level := Level.ofBool l } }) ∧
    (∀ l, b.apply w (.wr w.d2 l) = { b with d2 := { b.d2 with level := Level.ofBool l } }) ∧
    (∀ l, b.apply w (.wr w.d3 l) = { b with d3 := { b.d3 with level := Level.ofBool l } }) := by
  simp [PinBank.apply, PinState.apply, Wiring.distinct_ne hw]

/-- Settles O51: what the head event does to the pins is `PinBank.apply`, and R9's six pins differ. -/
theorem drainStepPerformsTheHeadEvent : Obligations.DrainStepPerformsTheHeadEvent := by
  unfold Obligations.DrainStepPerformsTheHeadEvent
  intro s ev q href hport hq hw
  have hstep := step_of_queued href (by simp [hport]) (by simp [hq])
  rw [s.drain_cons ev q hq] at hstep
  obtain ⟨wrE, wrRs, wrD0, wrD1, wrD2, wrD3⟩ := apply_wr_owned hw s.pins
  obtain ⟨cfgE, cfgRs, cfgD0, cfgD1, cfgD2, cfgD3⟩ := apply_cfg_owned hw s.pins
  refine ⟨s.pins.apply s.wiring ev, hstep, ?_, ?_, ?_, ?_, ?_, ?_, ?_, ?_, ?_, ?_, ?_, ?_, ?_⟩
  · rintro l rfl; exact wrE l
  · rintro l rfl; exact wrRs l
  · rintro l rfl; exact wrD0 l
  · rintro l rfl; exact wrD1 l
  · rintro l rfl; exact wrD2 l
  · rintro l rfl; exact wrD3 l
  · rintro rfl; exact cfgE
  · rintro rfl; exact cfgRs
  · rintro rfl; exact cfgD0
  · rintro rfl; exact cfgD1
  · rintro rfl; exact cfgD2
  · rintro rfl; exact cfgD3
  · rintro d rfl; rfl

theorem fetch_of_not_busy {e : Encoded} {s : State} (h : s.queue = [] ∨ ∀ w p, e ≠ .op w p) :
    fetch e s = decode e := by
  have hbusy : isBusy e s = false := by
    cases e with
    | op w p =>
      obtain hq | hne := h
      · simp [isBusy, hq]
      · exact absurd rfl (hne w p)
    | wire w => rfl
    | nibble n => rfl
  simp [fetch, hbusy]

/-- R28: an input that reaches a block which is not refused, and decodes, is run. -/
theorem step_of_arrived {s : State} {a : Arrival} {e : Encoded} {rest : List Input} {i : Instr}
    (href : s.refused = none) (hp : s.port = ⟨a, .encoded e⟩ :: rest)
    (hnow : a = .after 0 ∨ (a = .drained ∧ s.queue = [])) (hbusy : s.queue = [] ∨ ∀ w p, e ≠ .op w p)
    (hdec : decode e = .ok i) : step s = exec i { s with port := rest, issued := some e } := by
  have harrived : a.isNow s.queue = true := by
    obtain rfl | ⟨rfl, hq⟩ := hnow
    · rfl
    · simp [Arrival.isNow, hq]
  have hfetch : fetch e (s.take e rest) = .ok i := by rw [fetch_of_not_busy (by simpa using hbusy), hdec]
  rw [step, schedule_of_arrived href hp harrived]
  simp only [State.present, hfetch]
  rfl

/-- Settles O50: a word of `withFetchWord` is an input whose arrival is `after 0`. -/
theorem stepRunsTheDecodedInstruction : Obligations.StepRunsTheDecodedInstruction := by
  unfold Obligations.StepRunsTheDecodedInstruction
  refine ⟨fun s a e rest i href hp hnow hbusy hdec => step_of_arrived href hp hnow hbusy hdec, ?_⟩
  intro s nbits w e i href hword hbusy hdec
  have hput : s.withFetchWord nbits w = s.withInput e := by simp [State.withFetchWord, hword]
  refine ⟨by simp [decodeTableWord, hword, hdec], ?_⟩
  rw [hput, step_of_arrived (s := s.withInput e) href rfl (.inl rfl) hbusy hdec]
  rfl

/-! ## Reset -/

/-- Settles O54: a reset with nothing to wait for is taken at once, on a refused block and on any other. -/
theorem resetReconstructs : Obligations.ResetReconstructs := by
  unfold Obligations.ResetReconstructs
  intro s rest hp
  have hs : schedule s = .construct rest := by
    cases href : s.refused <;> simp [schedule, hp, href, Arrival.isNow]
  rw [step, hs]
  rfl

/-- Settles O49: each field is the one `State.reset` writes, and the views show no shadow while `ready` is 0. -/
theorem resetValues : Obligations.ResetValues := by
  unfold Obligations.ResetValues
  refine ⟨rfl, rfl, rfl, rfl, rfl, rfl, rfl, rfl, rfl, rfl, rfl, ?_, ?_, rfl, rfl⟩ <;> decide

end Sys2Proof.Machine
end

section
/-! PROOFS. The invariant (Safety.lean): every construction has it; an accepted operation, a refusal, an arrival
and a drain step keep it (10_state.md R22–R29; 41_transfer.md R74, R75). -/

namespace Sys2Proof.Machine

/-! ## What an accepted operation adds -/

/-- R70: INIT's expansion joins what is pending, whatever the geometry. -/
theorem accepted_init_history (cols rows : Option Byte) (csize : Option (BitVec 1)) (s : State) :
    (accepted (.init cols rows csize) s).history =
      s.history ++ initEvents s.wiring (funcFlags (override rows s.rows) (override csize s.csize)) :=
  State.accept_history _ _

/-- From a state of the invariant, an operation in its readiness keeps the history good and delivers exactly R64's
items. -/
theorem accepted_history {i : Instr} {s : State} (h : Inv s) (hop : i.isOperation = true)
    (hr : s.ready = !i.isInit) :
    Good s.wiring (accepted i s).history ∧
      wireItems s.wiring (accepted i s).history = wireItems s.wiring s.history ++ itemsSent i s := by
  cases i with
  | init cols rows csize =>
    obtain ⟨hempty, -⟩ := h.before_init hr
    rw [accepted_init_history, hempty]
    exact Good.init h.distinct _
  | clear | home =>
    simp only [accepted, State.accept_history]
    exact (h.good hr).long _
  | defglyph index bitmap =>
    simp only [accepted, State.accept_history]
    exact (h.good hr).glyph index bitmap
  | print text =>
    simp only [accepted, State.accept_history]
    exact (h.good hr).data text
  | setcur column row =>
    cases ha : cursorAddress s.cols column row with
    | none => simpa [accepted, itemsSent, ha] using h.good hr
    | some addr =>
      simp only [accepted, itemsSent, ha, State.accept_history]
      exact ⟨(h.good hr).send _ _, (h.good hr).items_send _ _⟩
  | wClear | wHome | wEntry | wDispctl | wShift | wFunc | wCgram | wDdram | wData | nWake | nCommit4 => cases hop
  | _ =>
    simp only [accepted, State.accept_history, State.sendCtrl_history, State.sendEntry_history]
    exact ⟨(h.good hr).send _ _, (h.good hr).items_send _ _⟩

/-! ## The always-0 bits of the shadows -/

theorem setBits_reserved {sh m r : Byte} (hsh : sh &&& r = 0) (hm : m &&& r = 0) : setBits sh m &&& r = 0 := by
  rw [setBits, BitVec.and_comm, BitVec.and_or_distrib_left, BitVec.and_comm r sh, BitVec.and_comm r m, hsh, hm]
  rfl

theorem clearBits_reserved {sh m r : Byte} (hsh : sh &&& r = 0) : clearBits sh m &&& r = 0 := by
  rw [clearBits, BitVec.and_assoc, BitVec.and_comm _ r, ← BitVec.and_assoc, hsh]
  exact BitVec.zero_and

theorem assignBits_reserved {en : Bool} {sh m r : Byte} (hsh : sh &&& r = 0) (hm : m &&& r = 0) :
    assignBits en sh m &&& r = 0 := by
  cases en
  · exact clearBits_reserved hsh
  · exact setBits_reserved hsh hm

/-- R23: no operation sets one of bits 7:3 of `sh.ctrl`. -/
theorem accepted_ctrl_reserved (i : Instr) {s : State} (h : s.shCtrl &&& 0xF8 = 0) :
    (accepted i s).shCtrl &&& 0xF8 = 0 := by
  cases i
  case init => exact show initialCtrl &&& 0xF8 = 0 by decide
  case on => exact setBits_reserved h rfl
  case off => exact clearBits_reserved h
  case cursor | blink => exact assignBits_reserved h rfl
  case setcur => simp only [accepted]; split <;> exact h
  all_goals exact h

/-- R24: no operation sets one of bits 7:2 of `sh.entry`. -/
theorem accepted_entry_reserved (i : Instr) {s : State} (h : s.shEntry &&& 0xFC = 0) :
    (accepted i s).shEntry &&& 0xFC = 0 := by
  cases i
  case init => exact show initialEntry &&& 0xFC = 0 by decide
  case ltr | justr => exact setBits_reserved h rfl
  case rtl | justl => exact clearBits_reserved h
  case setcur => simp only [accepted]; split <;> exact h
  all_goals exact h

/-! ## The index -/

@[simp] theorem longCommandEvents_length (w : Wiring) (b : Nat) : (longCommandEvents w b).length = 17 := rfl

@[simp] theorem glyphEvents_length (w : Wiring) (index : Byte) (g : Glyph) : (glyphEvents w index g).length = 160 := by
  simp [glyphEvents, Glyph.rows]

@[simp] theorem initEvents_length (w : Wiring) (f : Byte) : (initEvents w f).length = 105 := rfl

/-- R27: no operation accepted by an idle block is longer than PRINT of the longest text. -/
theorem accepted_index_bound {i : Instr} {s : State} (hop : i.isOperation = true) (hq : s.queue = [])
    (hbound : s.micro + s.queue.length ≤ Config.longestExpansion)
    (htext : ∀ text, i = .print text → text.length ≤ Config.maxPayload) :
    (accepted i s).micro + (accepted i s).queue.length ≤ Config.longestExpansion := by
  cases i with
  | print text =>
    have hlen := htext text rfl
    simp only [Config.maxPayload] at hlen
    simp only [accepted, State.accept_micro, State.accept_queue, hq, List.nil_append, dataEvents_length,
      Config.longestExpansion]
    omega
  | setcur column row =>
    cases ha : cursorAddress s.cols column row with
    | none => simpa [accepted, ha] using hbound
    | some addr => simp [accepted, ha, hq, Config.longestExpansion]
  | wClear | wHome | wEntry | wDispctl | wShift | wFunc | wCgram | wDdram | wData | nWake | nCommit4 => cases hop
  | _ => simp [accepted, hq, Config.longestExpansion]

theorem drain_micro_add_queue (s : State) :
    s.drain.micro + s.drain.queue.length = s.micro + s.queue.length := by
  cases hq : s.queue with
  | nil => rw [s.drain_nil hq, hq]
  | cons ev q =>
    simp only [s.drain_cons ev q hq, List.length_cons]
    omega

/-! ## Only INIT writes the geometry -/

/-- R22: only INIT writes `sh.func` and the geometry. -/
theorem accepted_geometry {i : Instr} (hi : i.isInit = false) (s : State) :
    (accepted i s).shFunc = s.shFunc ∧ (accepted i s).cols = s.cols ∧ (accepted i s).rows = s.rows ∧
      (accepted i s).csize = s.csize := by
  cases i
  case init => cases hi
  case setcur => simp only [accepted]; split <;> exact ⟨rfl, rfl, rfl, rfl⟩
  all_goals exact ⟨rfl, rfl, rfl, rfl⟩

/-- R71: what an operation leaves in `sh.func` is what the geometry gives. -/
theorem accepted_func_current (i : Instr) {s : State}
    (h : i.isInit = false → s.shFunc = funcFlags s.rows s.csize) :
    (accepted i s).shFunc = funcFlags (accepted i s).rows (accepted i s).csize := by
  cases hi : i.isInit with
  | true =>
    obtain ⟨cols, rows, csize, rfl⟩ := isInit_iff.mp hi
    rfl
  | false =>
    obtain ⟨hfunc, -, hrows, hcsize⟩ := accepted_geometry hi s
    rw [hfunc, hrows, hcsize, h hi]

/-! ## The invariant is kept -/

/-- R33: a construction with six distinct pins has the invariant. -/
theorem inv_construct {s : State} {rest : List Input} (hw : s.wiring.Distinct)
    (hhosts : ∀ x ∈ rest, x.isHosts = true) : Inv (s.construct rest) where
  distinct := hw
  ctrl_reserved := BitVec.zero_and
  entry_reserved := BitVec.zero_and
  func_current := nofun
  index_bound := Nat.zero_le _
  pins_replay := rfl
  owned := nofun
  configured := rfl
  before_init _ := ⟨rfl, rfl, rfl, rfl⟩
  settles := nofun
  latches_known := nofun
  latches_paired := nofun
  items_determined := nofun
  hosts_only := hhosts

/-- Settles O57: `State.reset` is its own construction with no inputs. -/
theorem invariantHoldsAtReset : Obligations.InvariantHoldsAtReset :=
  inv_construct (s := State.reset) (rest := []) (by decide) nofun

/-- A refusal keeps the invariant (R101). -/
theorem inv_refuse {s : State} (h : Inv s) (c : RefusalCode) : Inv { s with refused := some c } := { h with }

/-- Taking an input of the host from the port keeps the invariant (R98). -/
theorem inv_take {s : State} (h : Inv s) (e : Encoded) {rest : List Input} (hhosts : ∀ x ∈ rest, x.isHosts = true) :
    Inv (s.take e rest) := { h with hosts_only := hhosts }

/-- An accepted operation keeps the invariant. -/
theorem inv_accepted {i : Instr} {s : State} (h : Inv s) (hop : i.isOperation = true) (hq : s.queue = [])
    (hr : s.ready = !i.isInit) (htext : ∀ text, i = .print text → text.length ≤ Config.maxPayload) :
    Inv (accepted i s) := by
  obtain ⟨hgood, -⟩ := accepted_history h hop hr
  have hw := accepted_wiring i s
  have hready : (accepted i s).ready = true := by simp [accepted_ready, hr]
  exact {
    distinct := hw ▸ h.distinct
    ctrl_reserved := accepted_ctrl_reserved i h.ctrl_reserved
    entry_reserved := accepted_entry_reserved i h.entry_reserved
    func_current := fun _ => accepted_func_current i fun hi => h.func_current (by simp [hr, hi])
    index_bound := accepted_index_bound hop hq h.index_bound htext
    pins_replay := by rw [accepted_pins, accepted_trace, hw]; exact h.pins_replay
    owned := hw ▸ hgood.owned
    configured := hgood.configured
    before_init := fun hf => absurd hready (by simp [hf])
    settles := fun _ => hw ▸ ⟨hgood.outputs, hgood.settled⟩
    latches_known := hw ▸ hgood.known
    latches_paired := fun _ => hw ▸ ⟨hgood.four, hgood.even⟩
    items_determined := hw ▸ hgood.determined
    hosts_only := by rw [accepted_port]; exact h.hosts_only }

/-- An operation, accepted or refused, keeps the invariant. -/
theorem inv_exec {i : Instr} {s t : State} (h : Inv s) (hop : i.isOperation = true) (hexec : exec i s = .next t) :
    Inv t := by
  obtain ⟨-, ⟨c, rfl⟩ | ⟨-, hq, hr, rfl, htext, -⟩ | ⟨hitem, -⟩⟩ := exec_next_cases hexec
  · exact inv_refuse h c
  · exact inv_accepted h hop hq hr htext
  · rw [hop] at hitem; cases hitem

theorem drain_pins_replay {s : State} (h : s.pins = replay s.wiring PinBank.reset s.trace) :
    s.drain.pins = replay s.wiring PinBank.reset s.drain.trace := by
  cases hq : s.queue with
  | nil => rw [s.drain_nil hq]; exact h
  | cons ev q => rw [s.drain_cons ev q hq, replay_append, ← h]; rfl

/-- A drain step keeps the invariant: it moves the boundary between trace and queue (R28). -/
theorem inv_advance {s : State} (h : Inv s) {inputs : List Input} (hhosts : ∀ x ∈ inputs, x.isHosts = true) :
    Inv (s.advance inputs) where
  distinct := by simpa using h.distinct
  ctrl_reserved := by simpa using h.ctrl_reserved
  entry_reserved := by simpa using h.entry_reserved
  func_current := by simpa using h.func_current
  index_bound := (drain_micro_add_queue s).trans_le h.index_bound
  pins_replay := by simpa using drain_pins_replay h.pins_replay
  owned := by simpa using h.owned
  configured := by simpa using h.configured
  before_init := by simpa using h.before_init
  settles := by simpa using h.settles
  latches_known := by simpa using h.latches_known
  latches_paired := by simpa using h.latches_paired
  items_determined := by simpa using h.items_determined
  hosts_only := hhosts

theorem tickInputs_isHosts {xs : List Input} (h : ∀ x ∈ xs, x.isHosts = true) :
    ∀ x ∈ tickInputs xs, x.isHosts = true := by
  cases xs with
  | nil => exact h
  | cons y ys =>
    obtain ⟨hy, hys⟩ := List.forall_mem_cons.mp h
    exact List.forall_mem_cons.mpr ⟨hy, hys⟩

/-- What a host's input decodes to is an operation (R72). -/
theorem isOperation_of_isHosts {a : Arrival} {e : Encoded} {i : Instr} (hhost : Input.isHosts ⟨a, .encoded e⟩ = true)
    (hdec : decode e = .ok i) : i.isOperation = true := by
  cases e with
  | op w p =>
    simp only [decode] at hdec
    split at hdec
    · cases hdec; exact decodeOp_isOperation ‹_›
    · cases hdec
  | wire w => cases hhost
  | nibble n => cases hhost

/-- Settles O58: by what a step can do, a construction, an arrival (refused or run) or a drain step. -/
theorem stepKeepsTheInvariant : Obligations.StepKeepsTheInvariant := by
  unfold Obligations.StepKeepsTheInvariant
  intro s t h hstep
  obtain ⟨a, rest, hp, -, rfl⟩ | ⟨a, e, rest, hp, -, hpresent⟩ | rfl := step_next_cases hstep
  · have hhosts := h.hosts_only
    rw [hp] at hhosts
    exact inv_construct h.distinct (List.forall_mem_cons.mp hhosts).2
  · have hhosts := h.hosts_only
    rw [hp] at hhosts
    obtain ⟨hhost, hrest⟩ := List.forall_mem_cons.mp hhosts
    obtain ⟨c, rfl⟩ | ⟨i, hdec, hexec⟩ := present_eq_next hpresent
    · exact inv_refuse (inv_take h e hrest) c
    · exact inv_exec (inv_take h e hrest) (isOperation_of_isHosts hhost hdec) hexec
  · exact inv_advance h (tickInputs_isHosts h.hosts_only)

end Sys2Proof.Machine
end

section
/-! PROOFS. Who writes and who reads a register: the shadows' owners (10_state.md R22–R25) and the character size (R21). -/

namespace Sys2Proof.Machine

/-! ## The shadows' owners -/

/-- R23: only INIT, ON, OFF, CURSOR and BLINK write `sh.ctrl`. -/
theorem accepted_shCtrl {i : Instr} (s : State) (hinit : ∀ a b c, i ≠ .init a b c) (hon : i ≠ .on) (hoff : i ≠ .off)
    (hcursor : ∀ en, i ≠ .cursor en) (hblink : ∀ en, i ≠ .blink en) : (accepted i s).shCtrl = s.shCtrl := by
  cases i
  case init a b c => exact absurd rfl (hinit a b c)
  case on => exact absurd rfl hon
  case off => exact absurd rfl hoff
  case cursor en => exact absurd rfl (hcursor en)
  case blink en => exact absurd rfl (hblink en)
  case setcur => simp only [accepted]; split <;> rfl
  all_goals rfl

/-- R24: only INIT, LTR, RTL, JUSTR and JUSTL write `sh.entry`. -/
theorem accepted_shEntry {i : Instr} (s : State) (hinit : ∀ a b c, i ≠ .init a b c) (hltr : i ≠ .ltr) (hrtl : i ≠ .rtl)
    (hjustr : i ≠ .justr) (hjustl : i ≠ .justl) : (accepted i s).shEntry = s.shEntry := by
  cases i
  case init a b c => exact absurd rfl (hinit a b c)
  case ltr => exact absurd rfl hltr
  case rtl => exact absurd rfl hrtl
  case justr => exact absurd rfl hjustr
  case justl => exact absurd rfl hjustl
  case setcur => simp only [accepted]; split <;> rfl
  all_goals rfl

/-- Settles O39: a refusal writes the mark alone, and an accepted instruction writes its own shadow. -/
theorem onlyTheOwnersWriteAShadow : Obligations.OnlyTheOwnersWriteAShadow := by
  unfold Obligations.OnlyTheOwnersWriteAShadow
  intro i s t h
  obtain ⟨hwiring, hpins, htrace, hport, hissued⟩ := exec_frame h
  refine ⟨hwiring, hpins, htrace, hport, hissued, (exec_ready h).1, fun hinit => ?_⟩
  obtain ⟨c, rfl⟩ | rfl := exec_eq_mark_or_accepted h
  · exact ⟨rfl, rfl, rfl, rfl, rfl, fun _ _ _ _ => rfl, fun _ _ _ _ => rfl⟩
  · have hi := isInit_eq_false_iff.mpr hinit
    obtain ⟨hfunc, hcols, hrows, hcsize⟩ := accepted_geometry hi s
    exact ⟨hfunc, hcols, hrows, hcsize, by simp [accepted_ready, hi], accepted_shCtrl s hinit, accepted_shEntry s hinit⟩

/-! ## The character size -/

/-- The block with another character size. -/
def State.withCsize (s : State) (c : BitVec 1) : State := { s with csize := c }

/-- An outcome with another character size in its next state, if it has one. -/
def resultWithCsize (c : BitVec 1) : Result → Result
  | .next t    => .next (t.withCsize c)
  | .fault f   => .fault f
  | .refused r => .refused r

theorem ifRunning_withCsize (s : State) (c : BitVec 1) (r : Result) :
    (s.withCsize c).ifRunning (resultWithCsize c r) = resultWithCsize c (s.ifRunning r) := by
  unfold State.ifRunning
  rw [show (s.withCsize c).refused = s.refused from rfl]
  cases s.refused <;> rfl

theorem ifIdle_withCsize (s : State) (c : BitVec 1) (r : Result) :
    (s.withCsize c).ifIdle (resultWithCsize c r) = resultWithCsize c (s.ifIdle r) := by
  unfold State.ifIdle
  rw [← ifRunning_withCsize, show (s.withCsize c).queue = s.queue from rfl]
  cases s.queue <;> rfl

theorem ifReady_withCsize (s : State) (c : BitVec 1) (r : Result) :
    (s.withCsize c).ifReady (resultWithCsize c r) = resultWithCsize c (s.ifReady r) := by
  unfold State.ifReady
  rw [← ifIdle_withCsize, show (s.withCsize c).ready = s.ready from rfl]
  cases s.ready <;> rfl

/-- R21: every instruction but INIT commutes with a change of the character size: it neither reads nor writes it. -/
theorem exec_withCsize {i : Instr} (hinit : ∀ a b d, i ≠ .init a b d) (s : State) (c : BitVec 1) :
    exec i (s.withCsize c) = resultWithCsize c (exec i s) := by
  have hrunning := ifRunning_withCsize s c (.next (accepted i s))
  have hready := ifReady_withCsize s c (.next (accepted i s))
  cases i with
  | init a b d => exact absurd rfl (hinit a b d)
  | setcur column row =>
    refine Eq.trans ?_ (ifReady_withCsize s c _)
    simp only [exec, execSetcur, show (s.withCsize c).cols = s.cols from rfl]
    cases cursorAddress s.cols column row <;> rfl
  | print text =>
    refine Eq.trans ?_ (ifIdle_withCsize s c _)
    by_cases hl : text.length ≤ Config.maxPayload
    · simp only [exec, execPrint, hl, if_true]
      exact congrArg _ hready
    · simp only [exec, execPrint, hl, if_false]
      rfl
  | wClear | wHome | wEntry | wDispctl | wShift | wFunc | wCgram | wDdram | wData | nWake | nCommit4 => exact hrunning
  | _ => exact hready

/-- An accepted INIT takes the character size it is given, and keeps the old one otherwise (R69). -/
theorem exec_init_csize {cols rows : Option Byte} {csize : Option (BitVec 1)} {s t : State}
    (h : exec (.init cols rows csize) s = .next t) (ht : t.refused = none) : t.csize = csize.getD s.csize := by
  obtain ⟨c, rfl⟩ | rfl := exec_eq_mark_or_accepted h
  · cases ht
  · rfl

/-- R71, D12: the character size is bit 2 of the function-set flags and no other. -/
theorem funcFlags_getLsbD (rows : Byte) (c d : BitVec 1) {j : Nat} (hj : j ≠ 2) :
    (funcFlags rows c).getLsbD j = (funcFlags rows d).getLsbD j := by
  have hbit : ∀ x : BitVec 1, (x.setWidth 8 <<< 2).getLsbD j = false := by
    intro x
    simp only [BitVec.getLsbD_shiftLeft, BitVec.getLsbD_setWidth]
    by_cases hlow : j < 2
    · simp [hlow]
    · simp [BitVec.getLsbD_of_ge x (j - 2) (by omega)]
  simp only [funcFlags, BitVec.getLsbD_or, hbit]

/-- Settles O40: only INIT writes the character size, no other instruction reads it, and it shows in one bit. -/
theorem onlyInitUsesTheCharacterSize : Obligations.OnlyInitUsesTheCharacterSize := by
  unfold Obligations.OnlyInitUsesTheCharacterSize
  refine ⟨rfl, fun _ _ _ _ _ h ht => exec_init_csize h ht, ?_, fun _ _ _ _ _ _ => rfl,
    2, fun rows c d j hj => funcFlags_getLsbD rows c d hj⟩
  intro i s c hinit
  rw [show exec i { s with csize := c } = _ from exec_withCsize hinit s c]
  cases exec i s <;> rfl

end Sys2Proof.Machine
end

section
/-! PROOFS. The shadows mirror what was last sent (10_state.md R32): which registers of the controller a byte reaches,
and that the items of every operation but CMD keep each shadow at the last value sent to its register. -/

namespace Sys2Proof.Machine

/-! ## Which register a sent byte reaches -/

/-- The item reaches none of the three mirrored registers. -/
abbrev WireItem.Unmirrored (x : WireItem) : Prop :=
  x.funcSetFlags = none ∧ x.ctrlFlags = none ∧ x.entryFlags = none

/-- R65: RS = 1 is W.DATA. -/
theorem instr_sentItem_data (b : Nat) : (sentItem true b).instr = some (.wData (BitVec.ofNat 8 b)) := by
  have hclass : ∀ v : Byte, decodeWire (bit true ++ v) = some (.wData v) := by decide
  exact hclass _

/-- R60, R65, R96: a byte with bit 7 set is W.DDRAM with its low seven bits. -/
theorem instr_sentItem_ddram (addr : Nat) :
    (sentItem false (ddramByte addr)).instr = some (.wDdram (BitVec.ofNat 7 addr)) := by
  have hclass : ∀ v : Byte, decodeWire (bit false ++ (0x80 ||| v)) = some (.wDdram (v.setWidth 7)) := by decide
  have hbyte : BitVec.ofNat 8 (ddramByte addr) = 0x80 ||| BitVec.ofNat 8 addr := BitVec.ofNat_or
  have haddr : BitVec.ofNat 7 addr = (BitVec.ofNat 8 addr).setWidth 7 := by
    simp
  rw [haddr, ← hclass, ← hbyte]
  rfl

theorem unmirrored_data (b : Nat) : (sentItem true b).Unmirrored := by
  simp [WireItem.Unmirrored, WireItem.funcSetFlags, WireItem.ctrlFlags, WireItem.entryFlags, instr_sentItem_data]

theorem unmirrored_ddram (addr : Nat) : (sentItem false (ddramByte addr)).Unmirrored := by
  simp [WireItem.Unmirrored, WireItem.funcSetFlags, WireItem.ctrlFlags, WireItem.entryFlags, instr_sentItem_ddram]

theorem unmirrored_cgram : ∀ index : Byte, (sentItem false (cgramByte index)).Unmirrored := by decide

/-- R56: a control shadow with its always-0 bits clear reaches the display-control register whole, and no other. -/
theorem flags_ctrlByte : ∀ v : Byte, v &&& 0xF8 = 0 →
    (sentItem false (ctrlByte v)).funcSetFlags = none ∧ (sentItem false (ctrlByte v)).ctrlFlags = some v ∧
      (sentItem false (ctrlByte v)).entryFlags = none := by decide

/-- R55: an entry shadow with its always-0 bits clear reaches the entry-mode register whole, and no other. -/
theorem flags_entryByte : ∀ v : Byte, v &&& 0xFC = 0 →
    (sentItem false (entryByte v)).funcSetFlags = none ∧ (sentItem false (entryByte v)).ctrlFlags = none ∧
      (sentItem false (entryByte v)).entryFlags = some v := by decide

/-! ## Lists of items and the values they leave -/

/-- The items' last values for the three mirrored registers. -/
abbrev Mirrors (items : List WireItem) (func ctrl entry : Byte) : Prop :=
  lastSent WireItem.funcSetFlags items = some func ∧ lastSent WireItem.ctrlFlags items = some ctrl ∧
    lastSent WireItem.entryFlags items = some entry

theorem lastSent_append_item (flags : WireItem → Option Byte) (xs : List WireItem) (x : WireItem) :
    lastSent flags (xs ++ [x]) = (flags x).or (lastSent flags xs) := by
  cases hx : flags x <;> simp [lastSent, hx]

section
variable {items : List WireItem} {func ctrl entry : Byte}

/-- One more item replaces the values of the registers it reaches. -/
theorem Mirrors.append_item (h : Mirrors items func ctrl entry) (x : WireItem) :
    Mirrors (items ++ [x]) (x.funcSetFlags.getD func) (x.ctrlFlags.getD ctrl) (x.entryFlags.getD entry) := by
  obtain ⟨hfunc, hctrl, hentry⟩ := h
  simp [Mirrors, lastSent_append_item, hfunc, hctrl, hentry]

theorem Mirrors.append_unmirrored (h : Mirrors items func ctrl entry) {new : List WireItem}
    (hnew : ∀ x ∈ new, x.Unmirrored) : Mirrors (items ++ new) func ctrl entry := by
  induction new generalizing items with
  | nil => rwa [List.append_nil]
  | cons x new ih =>
    obtain ⟨⟨hfunc, hctrl, hentry⟩, hrest⟩ := List.forall_mem_cons.mp hnew
    have hx := h.append_item x
    rw [hfunc, hctrl, hentry] at hx
    rw [List.append_cons]
    exact ih hx hrest

theorem Mirrors.append_ctrl (h : Mirrors items func ctrl entry) {v : Byte} (hv : v &&& 0xF8 = 0) :
    Mirrors (items ++ [sentItem false (ctrlByte v)]) func v entry := by
  obtain ⟨hfunc, hctrl, hentry⟩ := flags_ctrlByte v hv
  have hx := h.append_item (sentItem false (ctrlByte v))
  rw [hfunc, hctrl, hentry] at hx
  exact hx

theorem Mirrors.append_entry (h : Mirrors items func ctrl entry) {v : Byte} (hv : v &&& 0xFC = 0) :
    Mirrors (items ++ [sentItem false (entryByte v)]) func ctrl v := by
  obtain ⟨hfunc, hctrl, hentry⟩ := flags_entryByte v hv
  have hx := h.append_item (sentItem false (entryByte v))
  rw [hfunc, hctrl, hentry] at hx
  exact hx

end

/-- R71: the function-set flags use bits 3 and 2 alone. -/
theorem funcFlags_reserved (rows : Byte) (csize : BitVec 1) : funcFlags rows csize &&& 0xF3 = 0 := by
  unfold funcFlags
  split <;> revert csize <;> decide

/-- R70: INIT sends each of the three registers once, and CLEAR after them. -/
theorem mirrors_init_items : ∀ f : Byte, f &&& 0xF3 = 0 →
    Mirrors [.nibble 0x3, .nibble 0x3, .nibble 0x3, .nibble 0x2, sentItem false (funcByte f),
      sentItem false 0x0C, sentItem false 0x06, sentItem false 0x01] f initialCtrl initialEntry := by decide

/-! ## Every operation but CMD -/

/-- R32, R64: what an accepted operation sends to a mirrored register is what it writes to the register's shadow. -/
theorem mirrors_accepted {i : Instr} {s : State} (h : Inv s) (hop : i.isOperation = true) (hcmd : ∀ c, i ≠ .cmd c)
    (hr : s.ready = !i.isInit) (hs : s.Mirrored) :
    Mirrors (wireItems s.wiring s.history ++ itemsSent i s)
      (accepted i s).shFunc (accepted i s).shCtrl (accepted i s).shEntry := by
  have hbefore : s.ready = true → Mirrors (wireItems s.wiring s.history) s.shFunc s.shCtrl s.shEntry := hs
  have hctrl := accepted_ctrl_reserved i h.ctrl_reserved
  have hentry := accepted_entry_reserved i h.entry_reserved
  cases i with
  | init cols rows csize =>
    obtain ⟨hempty, -⟩ := h.before_init hr
    rw [hempty]
    exact mirrors_init_items _ (funcFlags_reserved _ _)
  | cmd code => exact absurd rfl (hcmd code)
  | on | off | cursor | blink => exact (hbefore hr).append_ctrl hctrl
  | ltr | rtl | justr | justl => exact (hbefore hr).append_entry hentry
  | wrbyte v =>
    exact (hbefore hr).append_unmirrored (List.forall_mem_singleton.mpr (unmirrored_data _))
  | clear | home | scrl | scrr => exact (hbefore hr).append_unmirrored (List.forall_mem_singleton.mpr (by decide))
  | defglyph index bitmap =>
    refine (hbefore hr).append_unmirrored fun x hx => ?_
    simp only [itemsSent, List.cons_append, List.mem_cons, List.mem_append, List.mem_map, List.not_mem_nil,
      or_false] at hx
    obtain rfl | ⟨row, -, rfl⟩ | rfl := hx
    · exact unmirrored_cgram index
    · exact unmirrored_data _
    · decide
  | setcur column row =>
    cases ha : cursorAddress s.cols column row with
    | none => simpa [accepted, itemsSent, ha] using hbefore hr
    | some addr =>
      simp only [accepted, itemsSent, ha]
      exact (hbefore hr).append_unmirrored (List.forall_mem_singleton.mpr (unmirrored_ddram addr))
  | print text =>
    refine (hbefore hr).append_unmirrored fun x hx => ?_
    obtain ⟨v, -, rfl⟩ := List.mem_map.mp hx
    exact unmirrored_data _
  | wClear | wHome | wEntry | wDispctl | wShift | wFunc | wCgram | wDdram | wData | nWake | nCommit4 => cases hop

/-- Settles O41: a refusal changes no shadow and sends nothing; an accepted operation adds exactly R64's items. -/
theorem shadowsMirrorWhatWasSent : Obligations.ShadowsMirrorWhatWasSent := by
  unfold Obligations.ShadowsMirrorWhatWasSent
  intro i s t h hs hop hcmd hexec
  obtain ⟨-, ⟨c, rfl⟩ | ⟨-, -, hr, rfl, -⟩ | ⟨hitem, -⟩⟩ := exec_next_cases hexec
  · exact hs
  · obtain ⟨-, hitems⟩ := accepted_history h hop hr
    intro _
    rw [accepted_wiring, hitems]
    exact mirrors_accepted h hop hcmd hr hs
  · rw [hop] at hitem; cases hitem

end Sys2Proof.Machine
end

section
/-! PROOFS. What travels to the block and from it (20_memory.md): an operation as bytes (R39), and the nibbles that NIBBLE
and SEND latch, as slices of what they were given (R37, R38). -/

namespace Sys2Proof.Machine

/-! ## The byte path -/

/-- R39: a message read back is the operation that was sent, whatever its word and payload. -/
theorem ofBytes_toBytes (w : OpWord) (p : List Byte) : ofBytes (toBytes w p) = some (.op w p) := by
  rw [toBytes, ofBytes, pack_fields]

/-- Settles O10: the four fields are the word's four byte slices, in order from the low one. -/
theorem bytePathIsLeastSignificantFirst : Obligations.BytePathIsLeastSignificantFirst := by
  unfold Obligations.BytePathIsLeastSignificantFirst
  exact fun w p => ⟨rfl, ofBytes_toBytes w p⟩

/-! ## The nibbles latched -/

section
variable {w : Wiring} {b : PinBank} (hw : w.Distinct) (he : b.e.level = .low)
include hw he

/-- R38, R74: where RS is known, NIBBLE's one latch is RS with bits 0–3 of its value. -/
theorem latchesFrom_nibbleEvents_of_rs {rs : BitVec 1} (hrs : b.rs.level.bit? = some rs) (v : Nat) :
    latchesFrom w b (nibbleEvents w v) = [some (rs ++ BitVec.ofNat 4 v)] := by
  rw [latchesFrom_nibbleEvents hw b he, sample_afterNibble b v rs hrs]

/-- R37: SEND of a byte latches its two nibbles, the high one first. -/
theorem latchesFrom_sendEvents_byte (rs : Bool) (v : Byte) :
    latchesFrom w b (sendEvents w rs v.toNat) =
      [some (bit rs ++ v.extractLsb' 4 4), some (bit rs ++ v.extractLsb' 0 4)] := by
  have hhigh : BitVec.ofNat 4 (v.toNat >>> 4) = v.extractLsb' 4 4 := rfl
  have hlow : BitVec.ofNat 4 v.toNat = v.extractLsb' 0 4 := rfl
  rw [latchesFrom_sendEvents hw b he, hhigh, hlow]

end

/-- Settles O13: SEND's two latches, its number read as a byte. -/
theorem sendLatchesHighNibbleFirst : Obligations.SendLatchesHighNibbleFirst := by
  unfold Obligations.SendLatchesHighNibbleFirst
  exact fun w p rs b hw he => latchesFrom_sendEvents_byte hw he rs b

/-- Settles O14: NIBBLE's one latch, its number read as four bits. -/
theorem nibbleLatchesOnce : Obligations.NibbleLatchesOnce := by
  unfold Obligations.NibbleLatchesOnce
  intro w p v rs hw he hrs
  rw [latchesFrom_nibbleEvents_of_rs hw he hrs, BitVec.ofNat_toNat, BitVec.setWidth_eq]

end Sys2Proof.Machine
end

section
/-! PROOFS. The two encodings of 30_encoding.md, read and written: how the decoder reads a word of each operation row
(R49–R51, R100), a byte item and a nibble item (R52–R65), and that decoder and encoder undo each other. -/

namespace Sys2Proof.Machine

/-! ## Payloads and reserved fields -/

/-- R49: DEFGLYPH's payload is a bitmap's eight rows. -/
theorem glyphOf_eq_some {p : List Byte} {g : Glyph} : glyphOf p = some g ↔ g.rows = p := by
  constructor
  · intro h
    unfold glyphOf at h
    split at h <;> cases h
    rfl
  · rintro rfl
    rfl

theorem glyphOf_isSome {p : List Byte} : (glyphOf p).isSome = true ↔ p.length = 8 := by
  simp only [Option.isSome_iff_exists, glyphOf_eq_some]
  constructor
  · rintro ⟨g, rfl⟩
    rfl
  · intro h
    match p, h with
    | [r0, r1, r2, r3, r4, r5, r6, r7], _ => exact ⟨⟨r0, r1, r2, r3, r4, r5, r6, r7⟩, rfl⟩

theorem printOf_eq_some {len : Nat} {p : List Byte} {i : Instr} :
    printOf len p = some i ↔ p.length = len ∧ .print p = i := by
  unfold printOf
  split <;> simp [*]

/-- R49: LEN is bits 23:8 of the word. -/
theorem fieldLen_eq (w : OpWord) : fieldLen w = w.toNat / 256 % 65536 := by
  have h : fieldB w ++ fieldA w = w.extractLsb' 8 16 := BitVec.extractLsb'_append_extractLsb'_eq_extractLsb' rfl
  rw [fieldLen, h, BitVec.extractLsb'_toNat, Nat.shiftRight_eq_div_pow]

theorem fieldLen_lt (w : OpWord) : fieldLen w < 65536 := (fieldB w ++ fieldA w).isLt

/-- R49: a text of LEN bytes gives LEN's two operand fields back. -/
theorem fields_of_length {w : OpWord} {text : List Byte} (h : text.length = fieldLen w) :
    lenLow text = fieldA w ∧ lenHigh text = fieldB w := by
  rw [fieldLen, BitVec.toNat_append, ← Nat.shiftLeft_add_eq_or_of_lt (fieldA w).isLt, Nat.shiftLeft_eq] at h
  rw [lenLow, lenHigh, ← BitVec.toNat_inj, ← BitVec.toNat_inj, BitVec.toNat_ofNat, BitVec.toNat_ofNat]
  omega

theorem and_byteMask (x : Byte) : x &&& 255#8 = x := BitVec.and_allOnes

/-- R51: a field whose eight bits are all reserved is 0. -/
theorem eq_zero_of_byteMask {x : Byte} (h : x &&& 0xFF = 0) : x = 0 := (and_byteMask x).symm.trans h

/-- R50: CURSOR's and BLINK's operand is its bit 0. -/
theorem enableField_of_reserved : ∀ a : Byte, a &&& 0xFE = 0 → 0#7 ++ bit (a.getLsbD 0) = a := by decide

/-! ## The 18 rows of operations -/

theorem decode_op (w : OpWord) (p : List Byte) : decode (.op w p) = (decodeOp w p).mapError .code := by
  simp only [decode]
  cases decodeOp w p <;> rfl

/-- The operation code in a row's fixed bits. -/
def opcodeOf (r : TableRow) : Byte := BitVec.ofNat 8 r.pattern

/-- How the decoder reads a word `w` of the operation row `r` with the payload `p`: a reserved bit is refused first, and
`o` is the row's operation for a payload of the length called for, none for another (R49–R51, R100). -/
structure ReadsAs (r : TableRow) (w : OpWord) (p : List Byte) (o : Option Instr) : Prop where
  decodes : decodeOp w p = checked (r.hits w.toNat) o
  isSome_iff : o.isSome = true ↔ p.length = payloadLength w
  mnemonic : ∀ i, o = some i → i.mnemonic = r.mnemonic
  wellFormed : ∀ i, o = some i → WellFormed i
  encodes : ∀ i, o = some i → r.hits w.toNat = true → i.mnemonic ≠ "INIT" → encode i = .op w p

section
variable {r : TableRow} {a b c : Byte} {p : List Byte}

/-- A word of an operation's row has the row's fixed bits exactly when its reserved operand bits are 0 (R51). -/
theorem hits_packWord_eq_reservedClear {x y z : Byte} (hp : r.pattern < 256)
    (hmask : r.mask = (packWord 0xFF x y z).toNat) :
    r.hits (packWord (opcodeOf r) a b c).toNat = decide (a &&& x = 0 ∧ b &&& y = 0 ∧ c &&& z = 0) := by
  have hpat : r.pattern = (opcodeOf r).toNat := (Nat.mod_eq_of_lt hp).symm
  have hm : BitVec.ofNat 32 r.mask = packWord 0xFF x y z := by rw [hmask, BitVec.ofNat_toNat, BitVec.setWidth_eq]
  rw [Bool.eq_iff_iff, hits_iff_fields r _ 0xFF x y z hm (hmask ▸ BitVec.isLt _) _ hpat, decide_eq_true_iff,
    fieldOpc_pack, fieldA_pack, fieldB_pack, fieldC_pack]
  exact and_iff_right BitVec.and_allOnes

/-- A row whose operation `i` carries no payload, its reserved operand bits being `x`, `y` and `z`. What is particular
to a row is that the encoder writes `i` back; the rest is the table's own text, read off by evaluation. -/
theorem readsAs_noPayload (x y z : Byte) (i : Instr)
    (henc : i.mnemonic ≠ "INIT" → a &&& x = 0 → b &&& y = 0 → c &&& z = 0 →
      encode i = .op (packWord (opcodeOf r) a b c) [])
    (hdec : decodeOp (packWord (opcodeOf r) a b c) p =
        checked (decide (a &&& x = 0 ∧ b &&& y = 0 ∧ c &&& z = 0)) (noPayload p i) := by
      simp [opcodeOf, decodeOp, fieldOpc_pack, fieldA_pack, fieldB_pack, fieldC_pack, and_byteMask])
    (hlen : payloadLength (packWord (opcodeOf r) a b c) = 0 := by simp [opcodeOf, payloadLength, fieldOpc_pack])
    (hp : r.pattern < 256 := by decide) (hmask : r.mask = (packWord 0xFF x y z).toNat := by rfl)
    (hm : i.mnemonic = r.mnemonic := by rfl) (hwf : WellFormed i := by rfl) :
    ∃ o, ReadsAs r (packWord (opcodeOf r) a b c) p o := by
  have hhits := hits_packWord_eq_reservedClear (a := a) (b := b) (c := c) hp hmask
  refine ⟨noPayload p i, by rw [hdec, hhits], ?_, fun j h => ?_, fun j h => ?_, fun j h => ?_⟩
  · rw [hlen]
    cases p <;> simp [noPayload]
  all_goals obtain ⟨rfl, rfl⟩ := noPayload_eq_some.mp h
  · exact hm
  · exact hwf
  · rw [hhits, decide_eq_true_iff]
    exact fun ⟨ha, hb, hc⟩ hinit => henc hinit ha hb hc

/-- An operation without operands: the word's other fields are 0. -/
theorem encode_of_bare {k : Byte} {i : Instr} (h : encode i = .op (packWord k 0 0 0) []) (ha : a &&& 0xFF = 0)
    (hb : b &&& 0xFF = 0) (hc : c &&& 0xFF = 0) : encode i = .op (packWord k a b c) [] := by
  rw [eq_zero_of_byteMask ha, eq_zero_of_byteMask hb, eq_zero_of_byteMask hc, h]

/-- An operation whose one operand is the byte `A`. -/
theorem encode_of_byte {k : Byte} {i : Instr} (h : encode i = .op (packWord k a 0 0) []) (_ : a &&& 0 = 0)
    (hb : b &&& 0xFF = 0) (hc : c &&& 0xFF = 0) : encode i = .op (packWord k a b c) [] := by
  rw [eq_zero_of_byteMask hb, eq_zero_of_byteMask hc, h]

/-- An operation whose one operand is bit 0 of `A`. -/
theorem encode_of_enable {k : Byte} {i : Instr} (h : encode i = .op (packWord k (0#7 ++ bit (a.getLsbD 0)) 0 0) [])
    (ha : a &&& 0xFE = 0) (hb : b &&& 0xFF = 0) (hc : c &&& 0xFF = 0) : encode i = .op (packWord k a b c) [] := by
  rw [eq_zero_of_byteMask hb, eq_zero_of_byteMask hc, h, enableField_of_reserved a ha]

theorem readsAs_defglyph : ∃ o, ReadsAs ⟨"DEFGLYPH", .op32, 0x00000010, 0xFFFF00FF⟩ (packWord 0x10 a b c) p o := by
  have hhits := hits_packWord_eq_reservedClear (r := ⟨"DEFGLYPH", .op32, 0x00000010, 0xFFFF00FF⟩)
    (a := a) (b := b) (c := c) (x := 0) (y := 0xFF) (z := 0xFF) (by decide) rfl
  refine ⟨(glyphOf p).map (.defglyph a), Eq.trans ?_ (congrArg (checked · _) hhits.symm), ?_, fun i h => ?_,
    fun i h => ?_, fun i h hhit _ => ?_⟩
  · simp [decodeOp, fieldOpc_pack, fieldA_pack, fieldB_pack, fieldC_pack, and_byteMask]
  · rw [Option.isSome_map, glyphOf_isSome]
    simp [payloadLength, fieldOpc_pack]
  all_goals obtain ⟨g, hg, rfl⟩ := Option.map_eq_some_iff.mp h
  · rfl
  · rfl
  · obtain ⟨-, hb, hc⟩ := of_decide_eq_true (hhits.symm.trans hhit)
    rw [eq_zero_of_byteMask hb, eq_zero_of_byteMask hc, encode, glyphOf_eq_some.mp hg]

theorem readsAs_print : ∃ o, ReadsAs ⟨"PRINT", .op32, 0x00000012, 0xFF0000FF⟩ (packWord 0x12 a b c) p o := by
  have hhits := hits_packWord_eq_reservedClear (r := ⟨"PRINT", .op32, 0x00000012, 0xFF0000FF⟩)
    (a := a) (b := b) (c := c) (x := 0) (y := 0) (z := 0xFF) (by decide) rfl
  refine ⟨printOf (fieldLen (packWord 0x12 a b c)) p, Eq.trans ?_ (congrArg (checked · _) hhits.symm), ?_,
    fun i h => ?_, fun i h => ?_, fun i h hhit _ => ?_⟩
  · simp [decodeOp, fieldOpc_pack, fieldC_pack, and_byteMask]
  · simp [Option.isSome_iff_exists, printOf_eq_some, payloadLength, fieldOpc_pack]
  all_goals obtain ⟨hp, rfl⟩ := printOf_eq_some.mp h
  · rfl
  · exact decide_eq_true (hp ▸ Nat.le_of_lt_succ (fieldLen_lt _))
  · obtain ⟨-, -, hc⟩ := of_decide_eq_true (hhits.symm.trans hhit)
    obtain ⟨hlow, hhigh⟩ := fields_of_length hp
    rw [fieldA_pack] at hlow
    rw [fieldB_pack] at hhigh
    rw [encode, hlow, hhigh, eq_zero_of_byteMask hc]

/-- R50, R51: the rows of the table one by one, each with its reserved bits and its operation. -/
theorem readsAs_packWord (hr : r ∈ opRows) : ∃ o, ReadsAs r (packWord (opcodeOf r) a b c) p o := by
  simp only [opRows, List.mem_cons, List.not_mem_nil, or_false] at hr
  rcases hr with rfl | rfl | rfl | rfl | rfl | rfl | rfl | rfl | rfl | rfl | rfl | rfl | rfl | rfl | rfl | rfl | rfl |
    rfl
  · exact readsAs_noPayload 0 0 0x8E (.init (supplied (c.getLsbD 4) a) (supplied (c.getLsbD 5) b)
      (supplied (c.getLsbD 6) (c.extractLsb' 0 1))) fun h => absurd rfl h
  · exact readsAs_noPayload 0 0xFF 0xFF (.wrbyte a) fun _ => encode_of_byte rfl
  · exact readsAs_noPayload 0 0xFF 0xFF (.cmd a) fun _ => encode_of_byte rfl
  · exact readsAs_noPayload 0xFF 0xFF 0xFF .clear fun _ => encode_of_bare rfl
  · exact readsAs_noPayload 0xFF 0xFF 0xFF .home fun _ => encode_of_bare rfl
  · exact readsAs_noPayload 0xFF 0xFF 0xFF .on fun _ => encode_of_bare rfl
  · exact readsAs_noPayload 0xFF 0xFF 0xFF .off fun _ => encode_of_bare rfl
  · exact readsAs_noPayload 0xFE 0xFF 0xFF (.cursor (a.getLsbD 0)) fun _ => encode_of_enable rfl
  · exact readsAs_noPayload 0xFE 0xFF 0xFF (.blink (a.getLsbD 0)) fun _ => encode_of_enable rfl
  · exact readsAs_noPayload 0xFF 0xFF 0xFF .scrl fun _ => encode_of_bare rfl
  · exact readsAs_noPayload 0xFF 0xFF 0xFF .scrr fun _ => encode_of_bare rfl
  · exact readsAs_noPayload 0xFF 0xFF 0xFF .ltr fun _ => encode_of_bare rfl
  · exact readsAs_noPayload 0xFF 0xFF 0xFF .rtl fun _ => encode_of_bare rfl
  · exact readsAs_noPayload 0xFF 0xFF 0xFF .justr fun _ => encode_of_bare rfl
  · exact readsAs_noPayload 0xFF 0xFF 0xFF .justl fun _ => encode_of_bare rfl
  · exact readsAs_defglyph
  · exact readsAs_noPayload 0 0 0xFF (.setcur a b) fun _ _ _ hc => by rw [eq_zero_of_byteMask hc]; rfl
  · exact readsAs_print

/-- Every word with a row's operation code is read as that row says. -/
theorem exists_readsAs (hr : r ∈ opRows) {w : OpWord} (hopc : (fieldOpc w).toNat = r.pattern) (p : List Byte) :
    ∃ o, ReadsAs r w p o := by
  have hk : opcodeOf r = fieldOpc w := by rw [opcodeOf, ← hopc, BitVec.ofNat_toNat, BitVec.setWidth_eq]
  have h := readsAs_packWord (a := fieldA w) (b := fieldB w) (c := fieldC w) (p := p) hr
  rwa [hk, pack_fields] at h

theorem ReadsAs.decode_eq {w : OpWord} {o : Option Instr} (h : ReadsAs r w p o) :
    decode (.op w p) = (checked (r.hits w.toNat) o).mapError .code := by
  rw [decode_op, h.decodes]

theorem ReadsAs.eq_none {w : OpWord} {o : Option Instr} (h : ReadsAs r w p o) (hlen : p.length ≠ payloadLength w) :
    o = none :=
  Option.eq_none_iff_forall_not_mem.mpr fun _ hi => hlen (h.isSome_iff.mp (Option.isSome_of_mem hi))

end

/-! ## Operation codes -/

/-- R50, R51: a code that no row has is 0x00 or above 0x12. -/
theorem opcode_cases : ∀ k : Byte, (k = 0 ∨ 0x13 ≤ k.toNat) ∨ ∃ r ∈ opRows, k.toNat = r.pattern := by decide

theorem decodeOp_of_unused {w : OpWord} (h : fieldOpc w = 0 ∨ 0x13 ≤ (fieldOpc w).toNat) (p : List Byte) :
    decodeOp w p = .error .badOpcode := by
  have hrange : (fieldOpc w).toNat = 0 ∨ 0x13 ≤ (fieldOpc w).toNat := h.imp_left (congrArg BitVec.toNat)
  unfold decodeOp
  dsimp only
  split
  case h_19 => rfl
  all_goals omega

/-- The operation code is the whole low byte of every row's fixed bits. -/
theorem opRows_lowByte : ∀ r ∈ opRows, r.mask % 2 ^ 8 = 2 ^ 8 - 1 ∧ r.pattern % 2 ^ 8 = r.pattern := by decide

theorem fieldOpc_of_hits {r : TableRow} (hr : r ∈ opRows) {w : OpWord} (h : r.hits w.toNat = true) :
    (fieldOpc w).toNat = r.pattern := by
  obtain ⟨hmask, hpat⟩ := opRows_lowByte r hr
  calc (fieldOpc w).toNat = w.toNat % 2 ^ 8 := by simp [fieldOpc]
    _ = (w.toNat &&& r.mask) % 2 ^ 8 := by
      rw [Nat.and_mod_two_pow, hmask, Nat.and_two_pow_sub_one_eq_mod, Nat.mod_mod]
    _ = r.pattern := by rw [eq_of_beq h, hpat]

/-- R49, R66: the payload length that a row's words call for. -/
theorem payloadLength_of_row {r : TableRow} (hr : r ∈ opRows) {w : OpWord} (hopc : (fieldOpc w).toNat = r.pattern) :
    payloadLength w =
      (if r.mnemonic = "DEFGLYPH" then 8 else if r.mnemonic = "PRINT" then w.toNat / 256 % 65536 else 0) := by
  rw [payloadLength, hopc, fieldLen_eq]
  revert r
  simp [opRows]

/-! ## Byte items and nibble items -/

/-- The decoder on a byte item in its carrier. -/
theorem decode_carryWire {x : BitVec 9} {i : Instr} : decode (carryWire x) = .ok i ↔ decodeWire x = some i := by
  simp only [decode, carryWire, BitVec.extractLsb'_append_eq_left, BitVec.extractLsb'_append_eq_right]
  cases decodeWire x <;> simp

/-- An accepted 16-bit carrier has nothing above its byte item. -/
theorem exists_carryWire {w : BitVec 16} {i : Instr} (h : decode (.wire w) = .ok i) : ∃ x, .wire w = carryWire x := by
  by_cases hhigh : w.extractLsb' 9 7 = 0
  · have hsplit : w.extractLsb' 9 7 ++ w.extractLsb' 0 9 = w := BitVec.extractLsb'_append_extractLsb'
    rw [hhigh] at hsplit
    exact ⟨_, congrArg Encoded.wire hsplit.symm⟩
  · simp only [decode, hhigh, if_false] at h
    cases h

/-- R53–R61, R65: over the 512 byte items, the class and the fields that are read write the item back. -/
theorem encode_of_decodeWire : ∀ x : BitVec 9, ∀ i ∈ decodeWire x, encode i = carryWire x := by decide

/-- The decoder on a nibble item in its carrier. -/
theorem decode_carryNibble {x : BitVec 5} {i : Instr} : decode (carryNibble x) = .ok i ↔ decodeNibble x = some i := by
  simp only [decode, carryNibble, BitVec.extractLsb'_append_eq_left, BitVec.extractLsb'_append_eq_right]
  cases decodeNibble x <;> simp

/-- An accepted 8-bit carrier has nothing above its nibble item. -/
theorem exists_carryNibble {n : BitVec 8} {i : Instr} (h : decode (.nibble n) = .ok i) :
    ∃ x, .nibble n = carryNibble x := by
  by_cases hhigh : n.extractLsb' 5 3 = 0
  · have hsplit : n.extractLsb' 5 3 ++ n.extractLsb' 0 5 = n := BitVec.extractLsb'_append_extractLsb'
    rw [hhigh] at hsplit
    exact ⟨_, congrArg Encoded.nibble hsplit.symm⟩
  · simp only [decode, hhigh, if_false] at h
    cases h

/-- R62, R63: over the 32 nibble items. -/
theorem encode_of_decodeNibble : ∀ x : BitVec 5, ∀ i ∈ decodeNibble x, encode i = carryNibble x := by decide

/-! ## Decoding what the encoder writes -/

/-- Settles O3: with its reserved bits 0 and no payload, an INIT word is accepted. -/
theorem initOperandsFollowPresenceBits : Obligations.InitOperandsFollowPresenceBits := by
  unfold Obligations.InitOperandsFollowPresenceBits
  intro a b c hc
  rw [decode_op, decodeOp, fieldOpc_pack, fieldA_pack, fieldB_pack, fieldC_pack, hc]
  rfl

theorem decode_encode_of_operation {i : Instr} (hop : i.isOperation = true) (hwf : WellFormed i) :
    decode (encode i) = .ok i := by
  cases i with
  | init cols rows csize =>
    obtain ⟨hres, hcols, hrows, hcsize, hvalue⟩ := initFlags_spec cols.isSome rows.isSome csize.isSome (csize.getD 0)
    rw [encode, initFlags, initOperandsFollowPresenceBits _ _ _ hres, hcols, hrows, hcsize, hvalue]
    cases cols <;> cases rows <;> cases csize <;> rfl
  | cursor en | blink en =>
    obtain ⟨hres, hen⟩ := enableField_spec en
    simp only [encode, decode_op, decodeOp, fieldOpc_pack, fieldA_pack, fieldB_pack, fieldC_pack, hres, hen]
    rfl
  | defglyph index bitmap =>
    simp only [encode, decode_op, decodeOp, fieldOpc_pack, fieldA_pack, fieldB_pack, fieldC_pack]
    rfl
  | print text =>
    have hlen : text.length ≤ 65535 := of_decide_eq_true hwf
    simp only [encode, decode_op, decodeOp, fieldOpc_pack, fieldA_pack, fieldB_pack, fieldC_pack,
      fieldLen_of_text _ _ _ hlen, printOf, if_true]
    rfl
  | wClear | wHome | wEntry | wDispctl | wShift | wFunc | wCgram | wDdram | wData | nWake | nCommit4 => cases hop
  | _ =>
    simp only [encode, decode_op, decodeOp, fieldOpc_pack, fieldA_pack, fieldB_pack, fieldC_pack]
    rfl

theorem decode_encode_of_item {i : Instr} (hitem : i.isOperation = false) : decode (encode i) = .ok i := by
  cases i with
  | wClear => exact decode_carryWire.mpr rfl
  | wHome dc => exact decode_carryWire.mpr (by revert dc; decide)
  | wEntry id s => exact decode_carryWire.mpr (by revert id s; decide)
  | wDispctl d c b => exact decode_carryWire.mpr (by revert d c b; decide)
  | wShift sc rl dc => exact decode_carryWire.mpr (by revert sc rl dc; decide)
  | wFunc dl n f dc => exact decode_carryWire.mpr (by revert dl n f dc; decide)
  | wCgram addr => exact decode_carryWire.mpr (by revert addr; decide)
  | wDdram addr => exact decode_carryWire.mpr (by revert addr; decide)
  | wData v => exact decode_carryWire.mpr (by revert v; decide)
  | nWake => exact decode_carryNibble.mpr rfl
  | nCommit4 => exact decode_carryNibble.mpr rfl
  | _ => cases hitem

/-- Settles O1: operations by their fields, wire items by their bits. -/
theorem decodeOfEncodeIsIdentity : Obligations.DecodeOfEncodeIsIdentity := by
  unfold Obligations.DecodeOfEncodeIsIdentity
  intro i hwf
  cases hop : i.isOperation with
  | true => exact decode_encode_of_operation hop hwf
  | false => exact decode_encode_of_item hop

/-! ## Encoding what the decoder reads -/

theorem encode_of_decodeOp {w : OpWord} {p : List Byte} {i : Instr} (h : decodeOp w p = .ok i) :
    WellFormed i ∧ (i.mnemonic ≠ "INIT" → encode i = .op w p) := by
  obtain hunused | ⟨r, hr, hopc⟩ := opcode_cases (fieldOpc w)
  · rw [decodeOp_of_unused hunused] at h
    cases h
  · obtain ⟨o, hreads⟩ := exists_readsAs hr hopc p
    obtain ⟨hhits, ho⟩ := checked_eq_ok.mp (hreads.decodes ▸ h)
    exact ⟨hreads.wellFormed i ho, hreads.encodes i ho hhits⟩

theorem wellFormed_of_item {i : Instr} (hitem : i.isOperation = false) : WellFormed i := by
  cases i
  case print => cases hitem
  all_goals rfl

/-- What the encoder carries as a byte or nibble item is no operation. -/
theorem not_operation_of_encode {i : Instr} (h : ∀ w p, encode i ≠ .op w p) : i.isOperation = false := by
  cases i with
  | wClear | wHome | wEntry | wDispctl | wShift | wFunc | wCgram | wDdram | wData | nWake | nCommit4 => rfl
  | _ => exact absurd rfl (h _ _)

/-- Settles O2: an operation by its row of the table, a byte or nibble item by its carrier. -/
theorem encodeOfDecodeIsIdentity : Obligations.EncodeOfDecodeIsIdentity := by
  unfold Obligations.EncodeOfDecodeIsIdentity
  intro e i h
  cases e with
  | op w p =>
    rw [decode_op] at h
    cases hdec : decodeOp w p with
    | ok j =>
      rw [hdec] at h
      cases h
      exact encode_of_decodeOp hdec
    | error c =>
      rw [hdec] at h
      cases h
  | wire w =>
    obtain ⟨x, hx⟩ := exists_carryWire h
    have henc := encode_of_decodeWire x i (decode_carryWire.mp (hx ▸ h))
    exact ⟨wellFormed_of_item (not_operation_of_encode (by simp [henc, carryWire])), fun _ => henc.trans hx.symm⟩
  | nibble n =>
    obtain ⟨x, hx⟩ := exists_carryNibble h
    have henc := encode_of_decodeNibble x i (decode_carryNibble.mp (hx ▸ h))
    exact ⟨wellFormed_of_item (not_operation_of_encode (by simp [henc, carryNibble])), fun _ => henc.trans hx.symm⟩

/-! ## The table's rows -/

/-- spec/opcode_table.json: the class of a byte item is the row whose fixed bits it has. -/
theorem mnemonic_of_wireRow : ∀ r ∈ itemRows, r.format = .wire9 → ∀ x : BitVec 9, r.hits x.toNat = true →
    (decodeWire x).map Instr.mnemonic = some r.mnemonic := by decide

theorem mnemonic_of_nibbleRow : ∀ r ∈ itemRows, r.format = .nib5 → ∀ x : BitVec 5, r.hits x.toNat = true →
    (decodeNibble x).map Instr.mnemonic = some r.mnemonic := by decide

/-- Settles O4: an operation's word is read as its row says, and the items are finitely many. -/
theorem tableWordsDecodeToTheirRow : Obligations.TableWordsDecodeToTheirRow := by
  unfold Obligations.TableWordsDecodeToTheirRow
  refine ⟨fun r hr w p hhits hlen => ?_, fun r hr hf x hhits => ?_, fun r hr hf x hhits => ?_⟩
  · obtain ⟨o, hreads⟩ := exists_readsAs hr (fieldOpc_of_hits hr hhits) p
    obtain ⟨i, rfl⟩ := Option.isSome_iff_exists.mp (hreads.isSome_iff.mpr hlen)
    exact ⟨i, by rw [hreads.decode_eq, hhits]; rfl, hreads.mnemonic i rfl⟩
  · obtain ⟨i, hi, hm⟩ := Option.map_eq_some_iff.mp (mnemonic_of_wireRow r hr hf x hhits)
    exact ⟨i, decode_carryWire.mpr hi, hm⟩
  · obtain ⟨i, hi, hm⟩ := Option.map_eq_some_iff.mp (mnemonic_of_nibbleRow r hr hf x hhits)
    exact ⟨i, decode_carryNibble.mpr hi, hm⟩

/-- Settles O5: every row's operation code lies between 0x01 and 0x12. -/
theorem unusedOpcodesAreBadOpcode : Obligations.UnusedOpcodesAreBadOpcode := by
  unfold Obligations.UnusedOpcodesAreBadOpcode
  intro w p h
  rw [decode_op, decodeOp_of_unused h]
  rfl

/-- Settles O6: the reserved bits are checked before the payload. -/
theorem reservedOperandBitsAreBadOperand : Obligations.ReservedOperandBitsAreBadOperand := by
  unfold Obligations.ReservedOperandBitsAreBadOperand
  intro r hr w p hopc hhits
  obtain ⟨o, hreads⟩ := exists_readsAs hr hopc p
  rw [hreads.decode_eq, hhits]
  rfl

/-- Settles O7: with the reserved bits 0, only the payload can be at fault. -/
theorem wrongPayloadLengthIsBadPayload : Obligations.WrongPayloadLengthIsBadPayload := by
  unfold Obligations.WrongPayloadLengthIsBadPayload
  intro r hr w p hhits hlen
  have hopc := fieldOpc_of_hits hr hhits
  obtain ⟨o, hreads⟩ := exists_readsAs hr hopc p
  obtain rfl := hreads.eq_none (by rwa [payloadLength_of_row hr hopc])
  rw [hreads.decode_eq, hhits]
  rfl

/-! ## Classes and sample words -/

/-- R65: for RS = 0, over the 255 bytes that have a 1 bit. -/
theorem mnemonic_of_leadingOne : ∀ b : Byte, b ≠ 0 →
    (decodeWire (0#1 ++ b)).map Instr.mnemonic =
      ["W.CLEAR", "W.HOME", "W.ENTRY", "W.DISPCTL", "W.SHIFT", "W.FUNC", "W.CGRAM", "W.DDRAM"][b.toNat.log2]? := by
  decide

/-- R65: RS = 1 is W.DATA. -/
theorem decodeWire_data (v : Byte) : decodeWire (1#1 ++ v) = some (.wData v) := by
  have h : decodeWire (bit true ++ BitVec.ofNat 8 v.toNat) = _ := instr_sentItem_data v.toNat
  rwa [BitVec.ofNat_toNat, BitVec.setWidth_eq] at h

/-- Settles O8: over the bytes. -/
theorem wireClassIsTheLeadingOne : Obligations.WireClassIsTheLeadingOne := by
  unfold Obligations.WireClassIsTheLeadingOne
  refine ⟨fun b hb => ?_, rfl, decodeWire_data⟩
  have hclass := mnemonic_of_leadingOne b hb
  have hlog : b.toNat.log2 < 8 := (Nat.log2_lt (by simpa [BitVec.toNat_eq] using hb)).mpr b.isLt
  rw [List.getElem?_eq_getElem hlog] at hclass ⊢
  obtain ⟨i, hi, hm⟩ := Option.map_eq_some_iff.mp hclass
  exact ⟨i, hi, congrArg some hm.symm⟩

/-- Settles O9: by evaluation. -/
theorem sampleWordsDecode : Obligations.SampleWordsDecode := by
  unfold Obligations.SampleWordsDecode
  decide

end Sys2Proof.Machine
end

section
/-! PROOFS. The wire items (30_encoding.md R52–R64): the items run as instructions, what an operation delivers, and the
addresses and bytes it carries. -/

namespace Sys2Proof.Machine

/-! ## Items run as instructions -/

/-- R73: a byte item on a block that is not refused. -/
theorem deliver_of_running {s : State} (href : s.refused = none) {rs : Bool} {b n : Nat} (hb : b = n) :
    s.deliver rs b = .next { s with queue := s.queue ++ sendEvents s.wiring rs n } := by
  rw [hb]
  exact State.deliver_eq_next.mpr ⟨href, rfl⟩

/-- R72: a nibble item on a block that is not refused. -/
theorem deliverNibble_of_running {s : State} (href : s.refused = none) (v : Nat) :
    s.deliverNibble v = .next { s with queue := s.queue ++ nibbleEvents s.wiring v } :=
  State.deliverNibble_eq_next.mpr ⟨href, rfl⟩

/-- Settles O27: each item's byte is a disjunction of fields that share no bit, hence their sum. -/
theorem byteItemsAreSends : Obligations.ByteItemsAreSends := by
  unfold Obligations.ByteItemsAreSends
  intro s href
  refine ⟨deliver_of_running href rfl, fun dc => deliver_of_running href ?_, fun id sh => deliver_of_running href ?_,
    fun d c b => deliver_of_running href ?_, fun sc rl dc => deliver_of_running href ?_,
    fun dl n f dc => deliver_of_running href ?_, fun addr => deliver_of_running href ?_,
    fun addr => deliver_of_running href ?_, fun v => deliver_of_running href rfl⟩
  · revert dc; decide
  · revert id sh; decide
  · revert d c b; decide
  · revert sc rl dc; decide
  · revert dl n f dc; decide
  · exact (Nat.two_pow_add_eq_or_of_lt (i := 6) addr.isLt 1).symm
  · exact (Nat.two_pow_add_eq_or_of_lt (i := 7) addr.isLt 1).symm

/-- Settles O28: 0x3 and 0x2 are the wake and the mode-commit nibble. -/
theorem nibbleItemsAreNibbles : Obligations.NibbleItemsAreNibbles := by
  unfold Obligations.NibbleItemsAreNibbles
  exact fun s href => ⟨deliverNibble_of_running href _, deliverNibble_of_running href _⟩

/-! ## The items an operation delivers -/

/-- Settles O36: an idle block's history is its trace, and an accepted operation adds its items to the history. -/
theorem operationsDeliverTheirWireItems : Obligations.OperationsDeliverTheirWireItems := by
  unfold Obligations.OperationsDeliverTheirWireItems
  intro i s t h hop hexec href
  obtain ⟨-, ⟨c, rfl⟩ | ⟨-, hq, hr, rfl, -⟩ | ⟨hitem, -⟩⟩ := exec_next_cases hexec
  · cases href
  · obtain ⟨-, hitems⟩ := accepted_history h hop hr
    have htrace : s.history = s.trace := by rw [State.history, hq, List.append_nil]
    rw [State.drained_trace_eq_history, accepted_wiring, hitems, htrace]
  · rw [hop] at hitem; cases hitem

/-- R59, R92: the glyph slot is the index modulo 8, and DEFGLYPH's address byte has it in bits 5:3. -/
theorem sentItem_cgramByte : ∀ index : Byte,
    sentItem false (cgramByte index) = .byte (0x40 + 8 * BitVec.ofNat 9 (index.toNat % 8)) ∧
    (sentItem false (cgramByte index)).instr = some (.wCgram (8 * BitVec.ofNat 6 (index.toNat % 8))) := by decide

/-- R59. -/
theorem decodeWire_cgram : ∀ a : BitVec 6, decodeWire (0b001#3 ++ a) = some (.wCgram a) := by decide

/-- Settles O30: the first item of DEFGLYPH is its address byte. -/
theorem cgramAddressIsTheGlyphSlot : Obligations.CgramAddressIsTheGlyphSlot := by
  unfold Obligations.CgramAddressIsTheGlyphSlot
  refine ⟨decodeWire_cgram, fun index g s => ?_⟩
  obtain ⟨hbyte, hinstr⟩ := sentItem_cgramByte index
  exact ⟨congrArg some hbyte, hinstr⟩

/-- R61: a byte sent as data is W.DATA with that byte. -/
theorem instr_sentItem_byte (v : Byte) : (sentItem true v.toNat).instr = some (.wData v) := by
  rw [instr_sentItem_data, BitVec.ofNat_toNat, BitVec.setWidth_eq]

/-- Settles O31: each data item is W.DATA with its byte, and DEFGLYPH's last item is the DDRAM address 0. -/
theorem dataWritesCarryTheirByte : Obligations.DataWritesCarryTheirByte := by
  unfold Obligations.DataWritesCarryTheirByte
  refine ⟨decodeWire_data, fun v s => ?_, fun text s => ?_, fun index g s => ?_⟩
  · simp only [itemsSent, List.map_cons, List.map_nil, instr_sentItem_byte]
  · simp only [itemsSent, List.map_map, Function.comp_def, instr_sentItem_byte]
  · have hlast : (sentItem false 0x80).instr = some (.wDdram 0) := rfl
    simp only [itemsSent, Glyph.rows, List.map_cons, List.map_nil, List.cons_append, List.nil_append,
      List.drop_succ_cons, List.drop_zero, instr_sentItem_byte, hlast]

/-! ## Cursor addresses -/

/-- R93, R94: rows 0–3 have a line base of at most 0x40 plus the column count, and no other row has one. -/
theorem lineBase_cases (cols row : Byte) :
    (4 ≤ row.toNat ∧ lineBase cols row = none) ∨
      (row.toNat < 4 ∧ ∃ base, lineBase cols row = some base ∧ base ≤ 0x40 + cols.toNat) := by
  unfold lineBase
  generalize row.toNat = n
  match n with
  | 0 | 1 | 2 | 3 => exact .inr ⟨by decide, _, rfl, by omega⟩
  | n + 4 => exact .inl ⟨Nat.le_add_left 4 n, rfl⟩

/-- Settles O32: the largest line base is `0x40 + 0xFF` and the largest column 0xFF. -/
theorem cursorAddressIsExactThenTruncated : Obligations.CursorAddressIsExactThenTruncated := by
  unfold Obligations.CursorAddressIsExactThenTruncated
  intro cols column row
  refine ⟨rfl, rfl, rfl, rfl, ?_, fun addr h => ⟨?_, instr_sentItem_ddram addr⟩⟩
  · obtain ⟨hrow, hbase⟩ | ⟨hrow, base, hbase, -⟩ := lineBase_cases cols row
    · simp [cursorAddress, hbase, hrow]
    · simp [cursorAddress, hbase, hrow]
  · obtain ⟨-, hbase⟩ | ⟨-, base, hbase, hle⟩ := lineBase_cases cols row
    · simp [cursorAddress, hbase] at h
    · simp only [cursorAddress, hbase, Option.some.injEq] at h
      have hcols := cols.isLt
      have hcolumn := column.isLt
      omega

end Sys2Proof.Machine
end

section
/-! PROOFS. INIT's first nibbles (30_encoding.md R62, R63; 40_initialize.md R70): a NIBBLE latches once and a wait
latches nothing, so the expansion is followed nibble by nibble. -/

namespace Sys2Proof.Machine

/-- What a list of events has done from reset: the nibbles latched, the delays waited, E left low and RS left low. -/
structure Begun (w : Wiring) (es : List Event) (nibbles : List (BitVec 5)) (ws : List Delay) : Prop where
  latched : latches w es = nibbles.map some
  waited : waits es = ws
  e_low : (replay w PinBank.reset es).e.level = .low
  rs_low : (replay w PinBank.reset es).rs.level = .low

section
variable {w : Wiring} (hw : w.Distinct) {es : List Event} {nibbles : List (BitVec 5)} {ws : List Delay}
include hw

/-- R70: the six configurations and the two writes before the first nibble. -/
theorem begun_configured : Begun w (configureEvents w ++ [.wr w.rs false, .wr w.e false]) [] [] where
  latched := by
    simp [latches, configureEvents, latchesFrom, isLatch, PinBank.apply, PinState.apply, PinBank.reset,
      Wiring.distinct_ne hw]
  waited := rfl
  e_low := by
    simp [configureEvents, PinBank.apply, PinState.apply, PinBank.reset, Level.ofBool, Wiring.distinct_ne hw]
  rs_low := by
    simp [configureEvents, PinBank.apply, PinState.apply, PinBank.reset, Level.ofBool, Wiring.distinct_ne hw]

/-- R72, R74: with RS low, NIBBLE latches its four bits. -/
theorem Begun.nibble (h : Begun w es nibbles ws) (v : Nat) :
    Begun w (es ++ nibbleEvents w v) (nibbles ++ [0#1 ++ BitVec.ofNat 4 v]) ws where
  latched := by
    have hrs : (replay w PinBank.reset es).rs.level.bit? = some 0 := by rw [h.rs_low]; rfl
    rw [latches_append, h.latched, latchesFrom_nibbleEvents_of_rs hw h.e_low hrs, List.map_append]
    rfl
  waited := by rw [waits_append, h.waited, waits_nibbleEvents, List.append_nil]
  e_low := by rw [replay_append, replay_nibbleEvents hw]; rfl
  rs_low := by rw [replay_append, replay_nibbleEvents hw]; exact h.rs_low

omit hw in
theorem Begun.wait (h : Begun w es nibbles ws) (t : Delay) : Begun w (es ++ [.wait t]) nibbles (ws ++ [t]) where
  latched := by rw [latches_append, h.latched]; simp [latchesFrom, isLatch]
  waited := by rw [waits_append, h.waited]; rfl
  e_low := by rw [replay_append]; exact h.e_low
  rs_low := by rw [replay_append]; exact h.rs_low

/-- R72, R74: NIBBLE's first six events, before E falls, latch nothing. -/
theorem Begun.before_latch (h : Begun w es nibbles ws) (v : Nat) :
    latches w (es ++ (nibbleEvents w v).take 6) = nibbles.map some ∧ waits (es ++ (nibbleEvents w v).take 6) = ws := by
  constructor
  · rw [latches_append, h.latched]
    simp [nibbleEvents, latchesFrom, isLatch, PinBank.apply, PinState.apply, Wiring.distinct_ne hw, h.e_low]
  · rw [waits_append, h.waited]
    exact List.append_nil ws

/-- R70, R73: four nibbles and four SENDs. -/
theorem latches_initEvents_length (f : Byte) : (latches w (initEvents w f)).length = 12 := by
  obtain ⟨h0, -, hwake⟩ := Good.wake hw
  have h1 := h0.send false (funcByte f)
  have h2 := h1.send false (ctrlByte initialCtrl)
  have h3 := h2.send false (entryByte initialEntry)
  have hsplit : initEvents w f = (configureEvents w ++ wakeEvents w) ++ sendEvents w false (funcByte f)
      ++ sendEvents w false (ctrlByte initialCtrl) ++ sendEvents w false (entryByte initialEntry)
      ++ sendEvents w false clearByte ++ [.wait .long] := rfl
  rw [hsplit, latches_append, h3.latches_send, h2.latches_send, h1.latches_send, h0.latches_send, hwake]
  simp [latchesFrom, isLatch]

end

/-- R33: before INIT the pins are as they were constructed. -/
theorem pins_of_unready {s : State} (h : Inv s) (hr : s.ready = false) : s.pins = PinBank.reset := by
  obtain ⟨hhist, -⟩ := h.before_init hr
  have htrace : s.trace = [] := (List.append_eq_nil_iff.mp hhist).1
  rw [h.pins_replay, htrace, replay_nil]

/-- Settles O29: the first 40 events are the configuration, then four times a NIBBLE and its wait. -/
theorem initBeginsWithThreeWakesAndACommit : Obligations.InitBeginsWithThreeWakesAndACommit := by
  unfold Obligations.InitBeginsWithThreeWakesAndACommit
  refine ⟨⟨rfl, rfl⟩, fun cols rows csize s h hidle hr => ?_⟩
  refine ⟨accepted (.init cols rows csize) s, State.ifUnready_of_unready hidle hr _, ?_⟩
  obtain ⟨-, hqueue⟩ := hidle
  have hq : (accepted (.init cols rows csize) s).queue =
      initEvents s.wiring (funcFlags (override rows s.rows) (override csize s.csize)) := by
    simp [accepted, hqueue]
  rw [hq, pins_of_unready h hr]
  have hw := h.distinct
  have start := begun_configured hw
  have latch1 := start.nibble hw wakeNibble
  have wait1 := latch1.wait .wake1
  have latch2 := wait1.nibble hw wakeNibble
  have wait2 := latch2.wait .wake2
  have latch3 := wait2.nibble hw wakeNibble
  have wait3 := latch3.wait .wake3
  have latch4 := wait3.nibble hw commitNibble
  have wait4 := latch4.wait .commit
  exact ⟨⟨start.before_latch hw wakeNibble, ⟨latch1.latched, latch1.waited⟩, ⟨wait1.latched, wait1.waited⟩,
    ⟨latch2.latched, latch2.waited⟩, ⟨wait2.latched, wait2.waited⟩, ⟨latch3.latched, latch3.waited⟩,
    ⟨wait3.latched, wait3.waited⟩, ⟨latch4.latched, latch4.waited⟩, ⟨wait4.latched, wait4.waited⟩⟩,
    rfl, latches_initEvents_length hw _⟩

end Sys2Proof.Machine
end

section
/-! PROOFS. PRINT as WRBYTEs and as chunks (30_encoding.md R68): runs of operations that each perform their events and
change nothing else but the index. -/

namespace Sys2Proof.Machine

/-- The block after it accepted and performed the events `es`: every field but the trace, the pins and the index stands
(R28). -/
def State.performed (s : State) (es : List Event) (index : Nat) : State :=
  { s with micro := index, pins := replay s.wiring s.pins es, trace := s.trace ++ es }

theorem State.performed_performed (s : State) (xs ys : List Event) (m n : Nat) :
    (s.performed xs m).performed ys n = s.performed (xs ++ ys) n := by
  simp [State.performed, replay_append]

theorem State.performed_ready {s : State} (h : s.Ready) (es : List Event) (n : Nat) : (s.performed es n).Ready := h

theorem State.performed_nil (s : State) : s.performed [] s.micro = s := by
  simp [State.performed]

/-- R124: an operation that an idle block accepts, and the operations after it. -/
theorem runOps_cons_of_accept {i : Instr} {s : State} {es : List Event} (h : s.Ready)
    (hexec : exec i s = .next (s.accept es)) (is : List Instr) :
    runOps (i :: is) s = runOps is (s.performed es es.length) := by
  obtain ⟨⟨href, hq⟩, -⟩ := h
  have hdrained : (s.accept es).drained = s.performed es es.length := by
    simp [State.drained, State.performed, State.accept, hq]
  simp only [runOps, hexec, hdrained]
  simp [href]

theorem exec_wrbyte_of_ready {s : State} (h : s.Ready) (v : Byte) :
    exec (.wrbyte v) s = .next (s.accept (sendEvents s.wiring true v.toNat)) :=
  State.ifReady_of_ready h _

theorem exec_print_of_ready {s : State} (h : s.Ready) {text : List Byte} (hlen : text.length ≤ Config.maxPayload) :
    exec (.print text) s = .next (s.accept (dataEvents s.wiring text)) := by
  rw [exec, execPrint, State.ifIdle_of_idle h.1, if_pos hlen, State.ifReady_of_ready h]

/-- R76: WRBYTE of each byte of a text performs the text's data events. -/
theorem runOps_wrbytes {s : State} (h : s.Ready) (text : List Byte) :
    ∃ n, runOps (text.map Instr.wrbyte) s = some (s.performed (dataEvents s.wiring text) n) := by
  induction text generalizing s with
  | nil => exact ⟨s.micro, congrArg some s.performed_nil.symm⟩
  | cons v text ih =>
    obtain ⟨n, hrest⟩ := ih (State.performed_ready h (sendEvents s.wiring true v.toNat) 16)
    refine ⟨n, ?_⟩
    rw [List.map_cons, runOps_cons_of_accept h (exec_wrbyte_of_ready h v), dataEvents, ← State.performed_performed]
    exact hrest

/-- R68, R95: consecutive PRINTs perform the data events of the whole text. -/
theorem runOps_printChunks {s : State} (h : s.Ready) {fuel : Nat} {text : List Byte} (hfuel : text.length < fuel) :
    ∃ n, runOps (printChunks fuel text) s = some (s.performed (dataEvents s.wiring text) n) := by
  induction fuel generalizing s text with
  | zero => cases hfuel
  | succ fuel ih =>
    rw [printChunks]
    split
    · next hlen =>
      exact ⟨_, runOps_cons_of_accept h (exec_print_of_ready h hlen) []⟩
    · next hlen =>
      have hrest : (text.drop Config.maxPayload).length < fuel := by
        simp only [List.length_drop, Config.maxPayload] at hlen ⊢
        omega
      have hfirst := exec_print_of_ready h (List.length_take_le Config.maxPayload text)
      obtain ⟨n, hn⟩ := ih (State.performed_ready h (dataEvents s.wiring (text.take Config.maxPayload)) _) hrest
      refine ⟨n, ?_⟩
      rw [runOps_cons_of_accept h hfirst, hn, State.performed_performed]
      change some (s.performed (dataEvents s.wiring _ ++ dataEvents s.wiring _) n) = _
      rw [← dataEvents_append, List.take_append_drop]

/-- Settles O33: a PRINT, the WRBYTEs and the chunks of a text all perform its data events. -/
theorem printIsWrbytes : Obligations.PrintIsWrbytes := by
  unfold Obligations.PrintIsWrbytes
  refine ⟨fun text s t h hrun hlen => ?_, fun units s h => ?_⟩
  · obtain ⟨n, hwrbytes⟩ := runOps_wrbytes h text
    obtain rfl := Option.some.inj (hrun.symm.trans hwrbytes)
    exact ⟨_, runOps_cons_of_accept h (exec_print_of_ready h hlen) [], rfl, rfl, rfl, rfl, rfl⟩
  · have hfuel : (textBytes units).length < units.length + 1 := by simp [textBytes]
    obtain ⟨n, hn⟩ := runOps_printChunks h hfuel
    exact ⟨_, hn, congrArg (s.trace ++ ·) (dataEvents_eq_flatMap s.wiring (textBytes units))⟩

end Sys2Proof.Machine
end

section
/-! PROOFS. The instruction bytes that operations other than CMD send (30_encoding.md R65). -/

namespace Sys2Proof.Machine

/-- R65: the instruction bytes that an operation other than CMD can send, as the rule lists them. -/
abbrev Listed (b : Byte) : Prop :=
  b = 0x01 ∨ b = 0x02 ∨ (0x04 ≤ b ∧ b ≤ 0x07) ∨ (0x08 ≤ b ∧ b ≤ 0x0F) ∨ b = 0x18 ∨ b = 0x1C ∨
    b = 0x20 ∨ b = 0x24 ∨ b = 0x28 ∨ b = 0x2C ∨ (0x40 ≤ b ∧ b ≤ 0x78 ∧ b &&& 7 = 0) ∨ 0x80 ≤ b

theorem byte_eq_sentItem {b : Byte} {n : Nat} : WireItem.byte (0#1 ++ b) = sentItem false n ↔ b = BitVec.ofNat 8 n := by
  rw [sentItem, WireItem.byte.injEq]
  exact BitVec.append_right_inj 0#1

/-- An instruction byte is no data byte. -/
theorem byte_ne_data (b : Byte) (n : Nat) : WireItem.byte (0#1 ++ b) ≠ sentItem true n := by
  rw [sentItem, Ne, WireItem.byte.injEq]
  intro h
  have hrs := congrArg (BitVec.extractLsb' 8 1) h
  rw [BitVec.extractLsb'_append_eq_left, BitVec.extractLsb'_append_eq_left] at hrs
  cases hrs

/-! ## Each byte sent is listed -/

theorem listed_ctrlByte : ∀ v : Byte, v &&& 0xF8 = 0 → Listed (BitVec.ofNat 8 (ctrlByte v)) := by decide

theorem listed_entryByte : ∀ v : Byte, v &&& 0xFC = 0 → Listed (BitVec.ofNat 8 (entryByte v)) := by decide

theorem listed_funcByte : ∀ f : Byte, f &&& 0xF3 = 0 → Listed (BitVec.ofNat 8 (funcByte f)) := by decide

theorem listed_cgramByte : ∀ index : Byte, Listed (BitVec.ofNat 8 (cgramByte index)) := by decide

theorem listed_ddramByte (addr : Nat) : Listed (BitVec.ofNat 8 (ddramByte addr)) := by
  have hhigh : ∀ v : Byte, Listed (0x80 ||| v) := by decide
  have hbyte : BitVec.ofNat 8 (ddramByte addr) = 0x80 ||| BitVec.ofNat 8 addr := BitVec.ofNat_or
  exact hbyte ▸ hhigh _

theorem listed_of_itemsSent {i : Instr} {s : State} {b : Byte} (hctrl : s.shCtrl &&& 0xF8 = 0)
    (hentry : s.shEntry &&& 0xFC = 0) (hop : i.isOperation = true) (hcmd : ∀ c, i ≠ .cmd c)
    (h : WireItem.byte (0#1 ++ b) ∈ itemsSent i s) : Listed b := by
  have hctrl' := listed_ctrlByte _ (accepted_ctrl_reserved i hctrl)
  have hentry' := listed_entryByte _ (accepted_entry_reserved i hentry)
  cases i with
  | init cols rows csize =>
    simp only [itemsSent, List.mem_cons, byte_eq_sentItem, reduceCtorEq, List.not_mem_nil, false_or, or_false] at h
    obtain rfl | rfl | rfl | rfl := h
    · exact listed_funcByte _ (funcFlags_reserved _ _)
    all_goals decide
  | cmd code => exact absurd rfl (hcmd code)
  | wrbyte v => exact absurd (List.mem_singleton.mp h) (byte_ne_data b _)
  | clear | home | scrl | scrr =>
    obtain rfl := byte_eq_sentItem.mp (List.mem_singleton.mp h)
    decide
  | on | off | cursor | blink =>
    obtain rfl := byte_eq_sentItem.mp (List.mem_singleton.mp h)
    exact hctrl'
  | ltr | rtl | justr | justl =>
    obtain rfl := byte_eq_sentItem.mp (List.mem_singleton.mp h)
    exact hentry'
  | defglyph index bitmap =>
    simp only [itemsSent, List.cons_append, List.mem_cons, List.mem_append, List.mem_map, List.not_mem_nil, or_false,
      byte_eq_sentItem] at h
    obtain rfl | ⟨row, -, hrow⟩ | rfl := h
    · exact listed_cgramByte index
    · exact absurd hrow.symm (byte_ne_data b _)
    · decide
  | setcur column row =>
    simp only [itemsSent] at h
    split at h
    · obtain rfl := byte_eq_sentItem.mp (List.mem_singleton.mp h)
      exact listed_ddramByte _
    · cases h
  | print text =>
    obtain ⟨v, -, hv⟩ := List.mem_map.mp h
    exact absurd hv.symm (byte_ne_data b _)
  | wClear | wHome | wEntry | wDispctl | wShift | wFunc | wCgram | wDdram | wData | nWake | nCommit4 => cases hop

/-! ## Each byte listed is sent -/

/-- Some operation other than CMD sends the instruction byte, from shadows whose always-0 bits are 0. -/
abbrev Sendable (b : Byte) : Prop :=
  ∃ (s : State) (i : Instr), s.shCtrl &&& 0xF8 = 0 ∧ s.shEntry &&& 0xFC = 0 ∧ i.isOperation = true ∧
    (∀ c, i ≠ .cmd c) ∧ WireItem.byte (0#1 ++ b) ∈ itemsSent i s

/-- The reset state with other shadows. -/
def State.withShadows (ctrl entry : Byte) : State := { State.reset with shCtrl := ctrl, shEntry := entry }

theorem sendable_of_item {b : Byte} {n : Nat} (i : Instr) (ctrl entry : Byte) (hctrl : ctrl &&& 0xF8 = 0)
    (hentry : entry &&& 0xFC = 0) (hop : i.isOperation = true) (hcmd : ∀ c, i ≠ .cmd c)
    (hsent : sentItem false n ∈ itemsSent i (State.withShadows ctrl entry)) (hb : b = BitVec.ofNat 8 n) : Sendable b :=
  ⟨State.withShadows ctrl entry, i, hctrl, hentry, hop, hcmd, byte_eq_sentItem.mpr hb ▸ hsent⟩

/-- R55: LTR where bit 1 is 1, RTL where it is 0, from the shadow that has the byte's low bits. -/
theorem sendable_entryByte {b : Byte} (hlow : 0x04 ≤ b) (hhigh : b ≤ 0x07) : Sendable b := by
  have hbyte : ∀ b : Byte, 0x04 ≤ b → b ≤ 0x07 → b &&& 0x03 &&& 0xFC = 0 ∧
      (b = BitVec.ofNat 8 (entryByte (setBits (b &&& 0x03) maskID)) ∨
        b = BitVec.ofNat 8 (entryByte (clearBits (b &&& 0x03) maskID))) := by decide
  obtain ⟨hentry, hset | hclear⟩ := hbyte b hlow hhigh
  · exact sendable_of_item .ltr 0 (b &&& 0x03) rfl hentry rfl nofun (List.mem_singleton.mpr rfl) hset
  · exact sendable_of_item .rtl 0 (b &&& 0x03) rfl hentry rfl nofun (List.mem_singleton.mpr rfl) hclear

/-- R56: ON where bit 2 is 1, OFF where it is 0, from the shadow that has the byte's low bits. -/
theorem sendable_ctrlByte {b : Byte} (hlow : 0x08 ≤ b) (hhigh : b ≤ 0x0F) : Sendable b := by
  have hbyte : ∀ b : Byte, 0x08 ≤ b → b ≤ 0x0F → b &&& 0x07 &&& 0xF8 = 0 ∧
      (b = BitVec.ofNat 8 (ctrlByte (setBits (b &&& 0x07) maskD)) ∨
        b = BitVec.ofNat 8 (ctrlByte (clearBits (b &&& 0x07) maskD))) := by decide
  obtain ⟨hctrl, hset | hclear⟩ := hbyte b hlow hhigh
  · exact sendable_of_item .on (b &&& 0x07) 0 hctrl rfl rfl nofun (List.mem_singleton.mpr rfl) hset
  · exact sendable_of_item .off (b &&& 0x07) 0 hctrl rfl rfl nofun (List.mem_singleton.mpr rfl) hclear

/-- R58, R71: INIT of a geometry. -/
theorem sendable_funcByte (rows : Byte) (csize : BitVec 1) :
    Sendable (BitVec.ofNat 8 (funcByte (funcFlags rows csize))) :=
  sendable_of_item (.init none (some rows) (some csize)) 0 0 rfl rfl rfl nofun (by simp [itemsSent, override]) rfl

/-- R59: DEFGLYPH of the slot in bits 5:3. -/
theorem sendable_cgramByte {b : Byte} (hlow : 0x40 ≤ b) (hhigh : b ≤ 0x78) (hrow : b &&& 7 = 0) : Sendable b := by
  have hbyte : ∀ b : Byte, 0x40 ≤ b → b ≤ 0x78 → b &&& 7 = 0 → b = BitVec.ofNat 8 (cgramByte (b >>> 3)) := by decide
  exact sendable_of_item (.defglyph (b >>> 3) ⟨0, 0, 0, 0, 0, 0, 0, 0⟩) 0 0 rfl rfl rfl nofun List.mem_cons_self
    (hbyte b hlow hhigh hrow)

/-- R60, R93: SETCUR in row 0, whose line base is 0. -/
theorem sendable_ddramByte {b : Byte} (h : 0x80 ≤ b) : Sendable b := by
  have hbyte : ∀ b : Byte, 0x80 ≤ b → b = BitVec.ofNat 8 (ddramByte (0 + b.toNat)) := by decide
  exact sendable_of_item (.setcur b 0) 0 0 rfl rfl rfl nofun (List.mem_singleton.mpr rfl) (hbyte b h)

/-- R65: the rule's list, byte by byte. -/
theorem sendable_of_listed {b : Byte} (h : Listed b) : Sendable b := by
  obtain rfl | rfl | ⟨hlow, hhigh⟩ | ⟨hlow, hhigh⟩ | rfl | rfl | rfl | rfl | rfl | rfl | ⟨hlow, hhigh, hrow⟩ |
    hhigh := h
  · exact sendable_of_item .clear 0 0 rfl rfl rfl nofun (List.mem_singleton.mpr rfl) rfl
  · exact sendable_of_item .home 0 0 rfl rfl rfl nofun (List.mem_singleton.mpr rfl) rfl
  · exact sendable_entryByte hlow hhigh
  · exact sendable_ctrlByte hlow hhigh
  · exact sendable_of_item .scrl 0 0 rfl rfl rfl nofun (List.mem_singleton.mpr rfl) rfl
  · exact sendable_of_item .scrr 0 0 rfl rfl rfl nofun (List.mem_singleton.mpr rfl) rfl
  · exact sendable_funcByte 1 0
  · exact sendable_funcByte 1 1
  · exact sendable_funcByte 2 0
  · exact sendable_funcByte 2 1
  · exact sendable_cgramByte hlow hhigh hrow
  · exact sendable_ddramByte hhigh

/-- Settles O11: operation by operation, and byte by byte an operation that sends it. -/
theorem sendableInstructionBytes : Obligations.SendableInstructionBytes := by
  unfold Obligations.SendableInstructionBytes
  intro b
  constructor
  · rintro ⟨s, i, hctrl, hentry, hop, hcmd, hsent⟩
    exact listed_of_itemsSent hctrl hentry hop hcmd hsent
  · exact sendable_of_listed

end Sys2Proof.Machine
end

section
/-! PROOFS. INIT, whole (40_initialize.md R69–R71): the function-set flags, the event sequence in R70's order, and the
state an idle block is left in. -/

namespace Sys2Proof.Machine

/-- R71, D12: N is bit 3 and F bit 2. -/
theorem funcFlags_eq_masks (rows : Byte) (csize : BitVec 1) :
    funcFlags rows csize = (if 1 < rows.toNat then 0x08 else 0) ||| (if csize = 1 then 0x04 else 0) := by
  have hF : csize.setWidth 8 <<< 2 = if csize = 1 then (0x04 : Byte) else 0 := by
    revert csize; decide
  have hrows : rows > 1 ↔ 1 < rows.toNat := BitVec.lt_def
  rw [funcFlags, hF]
  by_cases hN : 1 < rows.toNat
  · rw [if_pos (hrows.mpr hN), if_pos hN]
    rfl
  · rw [if_neg (mt hrows.mp hN), if_neg hN]
    rfl

/-- R70: INIT's expansion in the rule's order, each byte as a number. -/
theorem initEvents_eq_sequence (w : Wiring) (f : Byte) :
    initEvents w f =
      [.cfg w.rs, .cfg w.e, .cfg w.d0, .cfg w.d1, .cfg w.d2, .cfg w.d3, .wr w.rs false, .wr w.e false]
      ++ nibbleEvents w 0x3 ++ [.wait .wake1]
      ++ nibbleEvents w 0x3 ++ [.wait .wake2]
      ++ nibbleEvents w 0x3 ++ [.wait .wake3]
      ++ nibbleEvents w 0x2 ++ [.wait .commit]
      ++ sendEvents w false (0x20 ||| f.toNat)
      ++ sendEvents w false 0x0C
      ++ sendEvents w false 0x06
      ++ sendEvents w false 0x01 ++ [.wait .long] := by
  have hctrl : ctrlByte initialCtrl = 0x0C := rfl
  have hentry : entryByte initialEntry = 0x06 := rfl
  rw [initEvents, hctrl, hentry]
  simp only [configureEvents, wakeEvents, longCommandEvents, funcByte, wakeNibble, commitNibble, clearByte,
    List.append_assoc, List.cons_append, List.nil_append]

/-- R14: with nothing pending, an accepted operation's expansion is the whole queue. -/
theorem State.accept_of_queue_nil {s : State} (h : s.queue = []) (es : List Event) :
    s.accept es = { s with queue := es, micro := 0 } := by
  rw [State.accept, h, List.nil_append]

/-- R69, R99: an idle block that is not yet ready accepts INIT. -/
theorem exec_init_of_unready {s : State} (h : s.Idle) (hr : s.ready = false) (cols rows : Option Byte)
    (csize : Option (BitVec 1)) : exec (.init cols rows csize) s = .next (accepted (.init cols rows csize) s) :=
  State.ifUnready_of_unready h hr _

/-- Settles O16: an accepted INIT writes the geometry, the shadows, `ready`, the queue and the index. Its queue was empty,
so it holds INIT's events alone. -/
theorem initEstablishesTheShadows : Obligations.InitEstablishesTheShadows := by
  unfold Obligations.InitEstablishesTheShadows
  intro cols rows csize s hidle hr f
  have hf : funcFlags (override rows s.rows) (override csize s.csize) = f := funcFlags_eq_masks _ _
  have hqueue : (s.withGeometry cols rows csize).establish.queue = [] := hidle.2
  rw [exec_init_of_unready hidle hr, accepted, State.accept_of_queue_nil hqueue, ← initEvents_eq_sequence, ← hf]
  rfl

end Sys2Proof.Machine
end

section
/-! PROOFS. The primitives in arithmetic form, and WRBYTE and CMD, whole (41_transfer.md R72–R77; 44_glyph_cursor_print.md
R96). -/

namespace Sys2Proof.Machine

/-! ## NIBBLE and SEND -/

/-- R72: NIBBLE's events, each data bit as a quotient's remainder. -/
theorem nibbleEvents_eq_div (w : Wiring) (v : Nat) :
    nibbleEvents w v =
      [.wr w.d0 (v / 1 % 2 == 1), .wr w.d1 (v / 2 % 2 == 1), .wr w.d2 (v / 4 % 2 == 1), .wr w.d3 (v / 8 % 2 == 1),
        .wr w.e false, .wr w.e true, .wr w.e false] := by
  simp only [nibbleEvents, Nat.testBit_eq_decide_div_mod_eq]
  rfl

/-- R72: NIBBLE reads only bits 0–3 of its value. -/
theorem nibbleEvents_mod (w : Wiring) (v : Nat) : nibbleEvents w (v % 16) = nibbleEvents w v := by
  have hbit : ∀ i < 4, (v % 16).testBit i = v.testBit i := fun i hi => by
    simp [Nat.testBit_mod_two_pow v 4 i, hi]
  simp only [nibbleEvents, hbit, Nat.reduceLT]

/-- R73: SEND's events, each nibble as a remainder. -/
theorem sendEvents_eq_div (w : Wiring) (rs : Bool) (b : Nat) :
    sendEvents w rs b =
      [.wr w.rs rs] ++ nibbleEvents w (b / 16 % 16) ++ nibbleEvents w (b % 16) ++ [.wait .cmd] := by
  rw [nibbleEvents_mod, nibbleEvents_mod, sendEvents, Nat.shiftRight_eq_div_pow, List.append_assoc]
  rfl

/-- Settles O12: the bits and the nibbles by division, and SEND's length. -/
theorem primitivesExpandToTheirEvents : Obligations.PrimitivesExpandToTheirEvents := by
  unfold Obligations.PrimitivesExpandToTheirEvents
  exact ⟨nibbleEvents_eq_div, fun w rs b => ⟨sendEvents_eq_div w rs b, sendEvents_length w rs b⟩⟩

/-- Settles O15: reduction modulo 256 keeps both nibbles. -/
theorem onlyLowEightBitsReachTheWire : Obligations.OnlyLowEightBitsReachTheWire := by
  unfold Obligations.OnlyLowEightBitsReachTheWire
  intro w rs b
  have hhigh : b % 256 / 16 % 16 = b / 16 % 16 := by omega
  have hlow : b % 256 % 16 = b % 16 := by omega
  rw [sendEvents_eq_div, sendEvents_eq_div w rs (b % 256), hhigh, hlow]

/-! ## WRBYTE and CMD -/

/-- R14, R99: a ready block that accepts an operation changes its queue and its index, nothing else. -/
theorem State.ifReady_accept_of_ready {s : State} (h : s.Ready) (es : List Event) :
    s.ifReady (.next (s.accept es)) = .next { s with queue := es, micro := 0 } := by
  have ⟨⟨_, hqueue⟩, _⟩ := h
  rw [State.ifReady_of_ready h, State.accept_of_queue_nil hqueue]

/-- R98–R100: a block that is not refused and not ready refuses, BUSY before NOT_READY. -/
theorem State.ifReady_of_not_ready {s : State} (href : s.refused = none) (h : ¬ s.Ready) (r : Result) :
    s.ifReady r = .next { s with refused := some (if s.queue = [] then .notReady else .busy) } := by
  by_cases hqueue : s.queue = []
  · have hready : s.ready = false := Bool.eq_false_iff.mpr fun hr => h ⟨⟨href, hqueue⟩, hr⟩
    rw [if_pos hqueue, State.ifReady_of_unready ⟨href, hqueue⟩ hready]
  · rw [if_neg hqueue, State.ifReady, State.ifIdle_of_busy href hqueue]

/-- R76: after SEND with RS = 1 the RS pin is high. -/
theorem rs_high_after_data {w : Wiring} (hw : w.Distinct) (b : PinBank) (v : Nat) :
    (replay w b (sendEvents w true v)).rs.level = .high := by
  rw [replay_sendEvents hw]
  rfl

/-- Settles O17: the word is the encoder's, the gate gives acceptance and refusals, SEND gives the pins and latches. -/
theorem wrbyteSendsItsValue : Obligations.WrbyteSendsItsValue := by
  unfold Obligations.WrbyteSendsItsValue
  refine ⟨fun v => ?word, fun v s h => ?accepts, fun v s href h => ?refuses, fun v w p hw he => ?latches,
    fun w => ?sample⟩
  case word => exact decodeOfEncodeIsIdentity (.wrbyte v) rfl
  case accepts => exact State.ifReady_accept_of_ready h _
  case refuses => exact State.ifReady_of_not_ready href h _
  case latches => exact ⟨rs_high_after_data hw p v.toNat, latchesFrom_sendEvents_byte hw he true v⟩
  case sample => rfl

/-- Settles O18: CMD is accepted with the events of its code. -/
theorem cmdSendsItsCodeAndNoShadow : Obligations.CmdSendsItsCodeAndNoShadow := by
  unfold Obligations.CmdSendsItsCodeAndNoShadow
  exact fun code s h => State.ifReady_accept_of_ready h _

end Sys2Proof.Machine
end

section
/-! PROOFS. CLEAR, HOME, ON, OFF, CURSOR and BLINK, whole (42_display_control.md R79–R84), and the law of the control shadow
along a run (R85). -/

namespace Sys2Proof.Machine

/-! ## The last toggle of each bit -/

/-- R23, D12: the control register of its three flags. -/
def ctrlRegister (power cursor blink : Bool) : Byte := 0#5 ++ bit power ++ bit cursor ++ bit blink

/-- R81, R82: what an operation switches the display to, if it does. -/
def powerToggle : Instr → Option Bool
  | .on  => some true
  | .off => some false
  | _    => none

/-- R83: what an operation switches the cursor to, if it does. -/
def cursorToggle : Instr → Option Bool
  | .cursor en => some en
  | _          => none

/-- R84: what an operation switches blinking to, if it does. -/
def blinkToggle : Instr → Option Bool
  | .blink en => some en
  | _         => none

/-- The value last assigned in a list, `v` before any: the head's assignment is what the tail starts from. -/
theorem getLast?_filterMap_cons_getD {α β : Type} (f : α → Option β) (a : α) (as : List α) (v : β) :
    ((a :: as).filterMap f).getLast?.getD v = (as.filterMap f).getLast?.getD ((f a).getD v) := by
  cases hf : f a with
  | none => rw [List.filterMap_cons_none hf, Option.getD_none]
  | some w => rw [List.filterMap_cons_some hf, List.getLast?_cons, Option.getD_some, Option.getD_some]

/-- R81, R82: the read-modify-write of D. -/
theorem powerBit_ctrlRegister : ∀ d c b : Bool,
    setBits (ctrlRegister d c b) maskD = ctrlRegister true c b ∧
      clearBits (ctrlRegister d c b) maskD = ctrlRegister false c b := by decide

/-- R83: the read-modify-write of C. -/
theorem cursorBit_ctrlRegister : ∀ en d c b : Bool,
    assignBits en (ctrlRegister d c b) maskC = ctrlRegister d en b := by decide

/-- R84: the read-modify-write of B. -/
theorem blinkBit_ctrlRegister : ∀ en d c b : Bool,
    assignBits en (ctrlRegister d c b) maskB = ctrlRegister d c en := by decide

/-- R85: an instruction other than INIT assigns the flags it toggles and leaves the others. -/
theorem accepted_ctrlRegister {i : Instr} {s : State} {d c b : Bool} (hinit : i.isInit = false)
    (h : s.shCtrl = ctrlRegister d c b) :
    (accepted i s).shCtrl =
      ctrlRegister ((powerToggle i).getD d) ((cursorToggle i).getD c) ((blinkToggle i).getD b) := by
  obtain ⟨hon, hoff⟩ := powerBit_ctrlRegister d c b
  have hcursor := fun en => cursorBit_ctrlRegister en d c b
  have hblink := fun en => blinkBit_ctrlRegister en d c b
  rw [← h] at hon hoff hcursor hblink
  cases i with
  | init => cases hinit
  | on => exact hon
  | off => exact hoff
  | cursor en => exact hcursor en
  | blink en => exact hblink en
  | _ => exact (accepted_shCtrl s (isInit_eq_false_iff.mp hinit) nofun nofun nofun nofun).trans h

/-- R124: a run that goes on has accepted its first operation, and goes on from the drained block. -/
theorem runOps_cons_eq_some {i : Instr} {is : List Instr} {s t : State} :
    runOps (i :: is) s = some t ↔ ∃ u, exec i s = .next u ∧ u.refused = none ∧ runOps is u.drained = some t := by
  rw [runOps]
  cases exec i s with
  | next u => cases hu : u.refused <;> simp [hu]
  | fault f => simp
  | refused r => simp

/-- R99, R124: a run from a ready block holds no INIT and keeps the block ready. -/
theorem runOps_cons_of_ready {i : Instr} {is : List Instr} {s t : State} (h : s.Ready)
    (hrun : runOps (i :: is) s = some t) :
    i.isInit = false ∧ (accepted i s).drained.Ready ∧ runOps is (accepted i s).drained = some t := by
  obtain ⟨-, hready⟩ := h
  obtain ⟨u, hexec, href, hrest⟩ := runOps_cons_eq_some.mp hrun
  have hkept : u.drained.Ready := ⟨⟨href, rfl⟩, (exec_ready hexec).1 hready⟩
  obtain ⟨-, ⟨c, rfl⟩ | ⟨-, -, hinit, rfl, -⟩ | ⟨hitem, rfl⟩⟩ := exec_next_cases hexec
  · cases href
  · exact ⟨by simpa [hready] using hinit, hkept, hrest⟩
  · exact ⟨isInit_of_not_operation hitem, hkept, hrest⟩

/-- R85 from any flags: each is what the run's last toggle of it says, or what it was. -/
theorem runOps_ctrlRegister {is : List Instr} {s t : State} {d c b : Bool} (hready : s.Ready)
    (h : s.shCtrl = ctrlRegister d c b) (hrun : runOps is s = some t) :
    t.shCtrl = ctrlRegister ((is.filterMap powerToggle).getLast?.getD d)
      ((is.filterMap cursorToggle).getLast?.getD c) ((is.filterMap blinkToggle).getLast?.getD b) := by
  induction is generalizing s d c b with
  | nil => cases hrun; exact h
  | cons i is ih =>
    obtain ⟨hinit, hready', hrest⟩ := runOps_cons_of_ready hready hrun
    simp only [getLast?_filterMap_cons_getD]
    exact ih hready' (accepted_ctrlRegister hinit h) hrest

/-- Settles O38: INIT's control shadow is display on, cursor off, blink off. -/
theorem displayControlFollowsTheLastToggles : Obligations.DisplayControlFollowsTheLastToggles := by
  unfold Obligations.DisplayControlFollowsTheLastToggles
  intro is s t hready hctrl hrun
  have hflags : s.shCtrl = ctrlRegister true false false := hctrl
  exact runOps_ctrlRegister hready hflags hrun

/-! ## Each operation, whole -/

/-- Settles O19: both add `longCommandEvents` to an empty queue. -/
theorem clearAndHomeAddTheLongWait : Obligations.ClearAndHomeAddTheLongWait := by
  unfold Obligations.ClearAndHomeAddTheLongWait
  exact fun s h => ⟨State.ifReady_accept_of_ready h _, State.ifReady_accept_of_ready h _⟩

/-- R81–R84, R99: a ready block that switches control flags changes `sh.ctrl`, its queue and its index, nothing else. -/
theorem State.ifReady_sendCtrl_of_ready {s : State} (h : s.Ready) (v : Byte) :
    s.ifReady (.next (s.sendCtrl v)) =
      .next { s with shCtrl := v, micro := 0, queue := sendEvents s.wiring false (0x08 ||| v.toNat) } := by
  have ⟨⟨_, hqueue⟩, _⟩ := h
  have hqueue' : { s with shCtrl := v }.queue = [] := hqueue
  rw [State.ifReady_of_ready h, State.sendCtrl, State.accept_of_queue_nil hqueue', ctrlByte]

/-- Settles O20: `maskD` is 0x04 and its complement 0xFB. -/
theorem onAndOffSwitchTheDisplayBit : Obligations.OnAndOffSwitchTheDisplayBit := by
  unfold Obligations.OnAndOffSwitchTheDisplayBit
  exact fun s h => ⟨State.ifReady_sendCtrl_of_ready h (setBits s.shCtrl maskD),
    State.ifReady_sendCtrl_of_ready h (clearBits s.shCtrl maskD)⟩

/-- Settles O21: `maskC` is 0x02 and `maskB` 0x01, their complements 0xFD and 0xFE. -/
theorem cursorAndBlinkAssignTheirBit : Obligations.CursorAndBlinkAssignTheirBit := by
  unfold Obligations.CursorAndBlinkAssignTheirBit
  exact fun en s h => ⟨State.ifReady_sendCtrl_of_ready h (assignBits en s.shCtrl maskC),
    State.ifReady_sendCtrl_of_ready h (assignBits en s.shCtrl maskB)⟩

end Sys2Proof.Machine
end

section
/-! PROOFS. SCRL, SCRR, LTR, RTL, JUSTR and JUSTL, whole (43_shift_entry.md R86–R91). -/

namespace Sys2Proof.Machine

/-- R86, D12: the display-shift instructions, S/C set and R/L clear or set. -/
theorem shiftByte_display : shiftByte true false = 0x18 ∧ shiftByte true true = 0x1C := ⟨rfl, rfl⟩

/-- Settles O22: each adds SEND of its shift byte to an empty queue. -/
theorem scrollsAreStateless : Obligations.ScrollsAreStateless := by
  unfold Obligations.ScrollsAreStateless
  intro s h
  obtain ⟨hleft, hright⟩ := shiftByte_display
  rw [← hleft, ← hright]
  exact ⟨State.ifReady_accept_of_ready h _, State.ifReady_accept_of_ready h _⟩

/-- R88–R91, R99: a ready block that switches entry flags changes `sh.entry`, its queue and its index, nothing else. -/
theorem State.ifReady_sendEntry_of_ready {s : State} (h : s.Ready) (v : Byte) :
    s.ifReady (.next (s.sendEntry v)) =
      .next { s with shEntry := v, micro := 0, queue := sendEvents s.wiring false (0x04 ||| v.toNat) } := by
  have ⟨⟨_, hqueue⟩, _⟩ := h
  have hqueue' : { s with shEntry := v }.queue = [] := hqueue
  rw [State.ifReady_of_ready h, State.sendEntry, State.accept_of_queue_nil hqueue', entryByte]

/-- Settles O23: `maskID` is 0x02 and `maskS` 0x01, their complements 0xFD and 0xFE. -/
theorem entryOperationsSwitchTheirBit : Obligations.EntryOperationsSwitchTheirBit := by
  unfold Obligations.EntryOperationsSwitchTheirBit
  exact fun s h => ⟨State.ifReady_sendEntry_of_ready h (setBits s.shEntry maskID),
    State.ifReady_sendEntry_of_ready h (clearBits s.shEntry maskID),
    State.ifReady_sendEntry_of_ready h (setBits s.shEntry maskS),
    State.ifReady_sendEntry_of_ready h (clearBits s.shEntry maskS)⟩

end Sys2Proof.Machine
end

section
/-! PROOFS. DEFGLYPH, SETCUR and PRINT, whole (44_glyph_cursor_print.md R92–R96), and what readiness decides for every
operation (60_exceptions.md R99). -/

namespace Sys2Proof.Machine

/-! ## DEFGLYPH -/

/-- R59, R92: the slot's address byte by division; the slot's bits and 0x40 do not overlap. -/
theorem cgramByte_eq_mod : ∀ index : Byte, cgramByte index = 0x40 + 8 * (index.toNat % 8) := by decide

/-- R92: DEFGLYPH's ten SENDs. -/
theorem glyphEvents_eq_sends (w : Wiring) (index r0 r1 r2 r3 r4 r5 r6 r7 : Byte) :
    glyphEvents w index ⟨r0, r1, r2, r3, r4, r5, r6, r7⟩ =
      sendEvents w false (0x40 + 8 * (index.toNat % 8))
        ++ sendEvents w true r0.toNat ++ sendEvents w true r1.toNat
        ++ sendEvents w true r2.toNat ++ sendEvents w true r3.toNat
        ++ sendEvents w true r4.toNat ++ sendEvents w true r5.toNat
        ++ sendEvents w true r6.toNat ++ sendEvents w true r7.toNat
        ++ sendEvents w false 0x80 := by
  have hreturn : ddramByte 0 = 0x80 := rfl
  simp only [glyphEvents, cgramByte_eq_mod, Glyph.rows, dataEvents, hreturn, List.append_nil, List.append_assoc]

/-- Settles O24: DEFGLYPH adds its ten SENDs to an empty queue. -/
theorem defglyphWritesTheSlotAndReturns : Obligations.DefglyphWritesTheSlotAndReturns := by
  unfold Obligations.DefglyphWritesTheSlotAndReturns
  intro index r0 r1 r2 r3 r4 r5 r6 r7 s h
  rw [← glyphEvents_eq_sends]
  exact State.ifReady_accept_of_ready h _

/-! ## SETCUR -/

theorem row_cases : ∀ row : Byte, row.toNat < 4 → row = 0 ∨ row = 1 ∨ row = 2 ∨ row = 3 := by decide

/-- R93, R94: the address in the rows of the line-base table. -/
theorem cursorAddress_of_row_lt {row : Byte} (hrow : row.toNat < 4) (cols column : Byte) :
    cursorAddress cols column row = some
      ((if row = 0 then 0 else if row = 1 then 0x40 else if row = 2 then 0x10 + cols.toNat else 0x40 + cols.toNat)
        + column.toNat) := by
  obtain rfl | rfl | rfl | rfl := row_cases row hrow <;> rfl

/-- R94: a row beyond the table has no address. -/
theorem cursorAddress_of_row_ge {row : Byte} (hrow : 4 ≤ row.toNat) (cols column : Byte) :
    cursorAddress cols column row = none := by
  obtain ⟨-, hbase⟩ | ⟨hlt, -⟩ := lineBase_cases cols row
  · rw [cursorAddress, hbase]
  · omega

/-- Settles O25: SETCUR finds its address, and adds SEND of it to an empty queue. -/
theorem setcurSendsLineBasePlusColumn : Obligations.SetcurSendsLineBasePlusColumn := by
  unfold Obligations.SetcurSendsLineBasePlusColumn
  intro column row s h hrow
  rw [exec, execSetcur, cursorAddress_of_row_lt hrow]
  exact State.ifReady_accept_of_ready h _

/-- Settles O43: SETCUR finds no address. -/
theorem rowsBeyondTheTableAreRefused : Obligations.RowsBeyondTheTableAreRefused := by
  unfold Obligations.RowsBeyondTheTableAreRefused
  intro column row s h hrow
  rw [exec, execSetcur, cursorAddress_of_row_ge hrow]
  exact State.ifReady_of_ready h _

/-! ## PRINT -/

/-- Settles O26: PRINT adds the text's data events, one SEND a byte, to an empty queue. -/
theorem printSendsEachByteInOrder : Obligations.PrintSendsEachByteInOrder := by
  unfold Obligations.PrintSendsEachByteInOrder
  intro text s h hlen
  have ⟨⟨_, hqueue⟩, _⟩ := h
  rw [exec_print_of_ready h hlen, State.accept_of_queue_nil hqueue, dataEvents_eq_flatMap]

/-! ## Readiness -/

theorem accepted_refused (i : Instr) (s : State) : (accepted i s).refused = s.refused := by
  cases i
  case setcur column row => cases ha : cursorAddress s.cols column row <;> simp [accepted, ha]
  all_goals rfl

/-- R99: an idle block asks an operation other than INIT for readiness, and then accepts it, unless it is a SETCUR beyond
the line-base table (R94). -/
theorem exec_eq_ifReady {i : Instr} {s : State} (hop : i.isOperation = true) (hwf : WellFormed i)
    (hinit : i.isInit = false) (h : s.Idle) :
    ∃ r, exec i s = s.ifReady r ∧
      ((∀ column row, i = .setcur column row → row.toNat < 4) → r = .next (accepted i s)) := by
  cases i with
  | init => cases hinit
  | print text =>
    have hlen : text.length ≤ Config.maxPayload := of_decide_eq_true hwf
    have hexec : exec (.print text) s = s.ifReady (.next (accepted (.print text) s)) := by
      rw [exec, execPrint, State.ifIdle_of_idle h, if_pos hlen, accepted]
    exact ⟨_, hexec, fun _ => rfl⟩
  | setcur column row =>
    refine ⟨_, rfl, fun hrow => ?_⟩
    simp only [accepted, cursorAddress_of_row_lt (hrow column row rfl)]
  | wClear | wHome | wEntry | wDispctl | wShift | wFunc | wCgram | wDdram | wData | nWake | nCommit4 => cases hop
  | _ => exact ⟨_, rfl, fun _ => rfl⟩

/-- Settles O42: INIT stands behind the gate for an unready block, every other operation behind the gate for a ready one. -/
theorem readinessDecidesWhoIsAccepted : Obligations.ReadinessDecidesWhoIsAccepted := by
  unfold Obligations.ReadinessDecidesWhoIsAccepted
  refine ⟨fun i s hop hwf hne h hr => ?notReady, fun a b c s h => ?reinit, fun a b c s h hr => ?init,
    fun i s hop hwf hne hrow h => ?others⟩
  case notReady =>
    obtain ⟨r, hexec, -⟩ := exec_eq_ifReady hop hwf (isInit_eq_false_iff.mpr hne) h
    rw [hexec, State.ifReady_of_unready h hr]
  case reinit => exact State.ifUnready_of_ready h _
  case init =>
    have ⟨href, _⟩ := h
    exact ⟨_, exec_init_of_unready h hr a b c, href, rfl⟩
  case others =>
    have ⟨hidle, hready⟩ := h
    have ⟨href, _⟩ := hidle
    obtain ⟨r, hexec, haccepts⟩ := exec_eq_ifReady hop hwf (isInit_eq_false_iff.mpr hne) hidle
    refine ⟨accepted i s, ?_, ?_, ?_⟩
    · rw [hexec, State.ifReady_of_ready h, haccepts hrow]
    · rw [accepted_refused, href]
    · rw [accepted_ready, hready, Bool.or_true]

end Sys2Proof.Machine
end

section
/-! PROOFS. Refusals (60_exceptions.md R98–R102): who is refused BUSY, what an input that stands for no instruction does, and
what a refused block can still do. -/

namespace Sys2Proof.Machine

/-! ## The gates an instruction stands behind -/

/-- R101: every instruction asks first whether the block is refused. -/
theorem exec_eq_ifRunning (i : Instr) (s : State) : ∃ r, exec i s = s.ifRunning r := by
  cases i <;> exact ⟨_, rfl⟩

/-- R98: every operation asks first whether the block is idle. -/
theorem exec_eq_ifIdle {i : Instr} (hop : i.isOperation = true) (s : State) : ∃ r, exec i s = s.ifIdle r := by
  cases i with
  | wClear | wHome | wEntry | wDispctl | wShift | wFunc | wCgram | wDdram | wData | nWake | nCommit4 => cases hop
  | _ => exact ⟨_, rfl⟩

/-- Settles O46: the marked outcome of `exec_next_cases` is the claim; the others leave the mark as they found it, unset. -/
theorem refusalChangesOnlyTheMark : Obligations.RefusalChangesOnlyTheMark := by
  unfold Obligations.RefusalChangesOnlyTheMark
  intro i s t hexec hrefused
  obtain ⟨hnone, -⟩ := exec_next_cases hexec
  obtain ⟨c, rfl⟩ | rfl := exec_eq_mark_or_accepted hexec
  · exact ⟨hnone, rfl⟩
  · exact absurd ((accepted_refused i s).trans hnone) hrefused

/-! ## Inputs that are refused -/

/-- R100: BUSY outranks what the decoder says of an operation. -/
theorem fetch_of_busy {s : State} (hq : s.queue ≠ []) (w : OpWord) (p : List Byte) :
    fetch (.op w p) s = .error (.code .busy) := by
  simp [fetch, isBusy, hq]

/-- R101: an input that reaches the block and is refused leaves the port and sets the mark. -/
theorem step_of_rejected {s : State} {a : Arrival} {e : Encoded} {rest : List Input} {c : RefusalCode}
    (href : s.refused = none) (hp : s.port = ⟨a, .encoded e⟩ :: rest) (hnow : a.isNow s.queue = true)
    (hfetch : fetch e (s.take e rest) = .error (.code c)) :
    step s = .next { s with port := rest, issued := some e, refused := some c } := by
  rw [step, schedule_of_arrived href hp hnow]
  simp only [State.present, hfetch]
  rfl

/-- Settles O44: the port's fetch and the instruction's own gate both ask for an empty queue before anything else. -/
theorem busyOutranksEveryOtherCause : Obligations.BusyOutranksEveryOtherCause := by
  unfold Obligations.BusyOutranksEveryOtherCause
  refine ⟨fun s w p rest href hp hq => ?arrival, fun i s hop href hq => ?meaning⟩
  case arrival => exact step_of_rejected href hp rfl (fetch_of_busy hq w p)
  case meaning =>
    obtain ⟨r, hexec⟩ := exec_eq_ifIdle hop s
    rw [hexec, State.ifIdle_of_busy href hq]

/-- Settles O45: an idle block is not BUSY, so the fetch answers what the decoder says. -/
theorem encodingIsCheckedBeforeTheState : Obligations.EncodingIsCheckedBeforeTheState := by
  unfold Obligations.EncodingIsCheckedBeforeTheState
  intro s w p rest c ⟨href, hq⟩ hp hdec
  have hnow : Arrival.drained.isNow s.queue = true := by rw [hq]; rfl
  have hfetch : fetch (.op w p) (s.take (.op w p) rest) = .error (.code c) :=
    (fetch_of_not_busy (.inl hq)).trans hdec
  exact step_of_rejected href hp hnow hfetch

/-! ## The refused block -/

/-- R101, R102: a refused block halts, unless the host's next input is a reset. -/
theorem schedule_of_refused {s : State} {c : RefusalCode} (href : s.refused = some c) :
    schedule s = .halt c ∨ ∃ a rest, s.port = ⟨a, .reset⟩ :: rest ∧ schedule s = .construct rest := by
  obtain ⟨c', href', hs⟩ | hreset | ⟨hnone, -⟩ | ⟨hnone, -⟩ := schedule_cases s
  · cases href.symm.trans href'
    exact .inl hs
  · exact .inr hreset
  · cases href.symm.trans hnone
  · cases href.symm.trans hnone

/-- Settles O47: the next input is no reset, so the block halts. -/
theorem refusedBlockHasNoStep : Obligations.RefusedBlockHasNoStep := by
  unfold Obligations.RefusedBlockHasNoStep
  intro s c href hport
  obtain hs | ⟨a, rest, hp, -⟩ := schedule_of_refused href
  · rw [step, hs]
  · exact absurd hp (hport a rest)

/-- Settles O48: of what a refused block can do, only the reset answers a next state; every instruction stands behind the
gate that faults. -/
theorem onlyResetClearsARefusal : Obligations.OnlyResetClearsARefusal := by
  unfold Obligations.OnlyResetClearsARefusal
  refine ⟨fun s t c href hstep => ?step, fun i s c href => ?meaning⟩
  case step =>
    obtain hs | ⟨a, rest, hp, hs⟩ := schedule_of_refused href
    all_goals rw [step, hs] at hstep
    · cases hstep
    · cases hstep
      exact ⟨a, rest, hp, rfl, rfl⟩
  case meaning =>
    obtain ⟨r, hexec⟩ := exec_eq_ifRunning i s
    rw [hexec, State.ifRunning_of_refused href]

end Sys2Proof.Machine
end

section
/-! PROOFS. The blocking host (70_reset_and_hazards.md R124; 60_exceptions.md R108): the stepping machine against `runOps`,
which runs the same operations without a port. -/

namespace Sys2Proof.Machine

/-! ## The host's side of the state -/

/-- The block with another host in front of it: the inputs still to come, and the last one issued. -/
def State.withHost (s : State) (port : List Input) (issued : Option Encoded) : State :=
  { s with port := port, issued := issued }

/-- The effect of an instruction reads nothing of the host's side. -/
theorem accepted_withHost (i : Instr) (s : State) (port : List Input) (issued : Option Encoded) :
    accepted i (s.withHost port issued) = (accepted i s).withHost port issued := by
  cases i
  case setcur column row =>
    have hcols : (s.withHost port issued).cols = s.cols := rfl
    simp only [accepted, hcols]
    cases cursorAddress s.cols column row <;> rfl
  all_goals rfl

/-- The converse of `exec_next_cases` for an accepted operation: an idle block in the right readiness accepts it. -/
theorem exec_eq_accepted {i : Instr} {s : State} (hop : i.isOperation = true) (hwf : WellFormed i) (h : s.Idle)
    (hr : s.ready = !i.isInit)
    (hrow : ∀ column row, i = .setcur column row → (cursorAddress s.cols column row).isSome = true) :
    exec i s = .next (accepted i s) := by
  cases hinit : i.isInit with
  | true =>
    obtain ⟨cols, rows, csize, rfl⟩ := isInit_iff.mp hinit
    exact exec_init_of_unready h hr cols rows csize
  | false =>
    obtain ⟨r, hexec, haccepts⟩ := exec_eq_ifReady hop hwf hinit h
    have hlt : ∀ column row, i = .setcur column row → row.toNat < 4 := by
      intro column row hi
      by_contra hge
      have hsome := hrow column row hi
      rw [cursorAddress_of_row_ge (Nat.le_of_not_lt hge)] at hsome
      cases hsome
    rw [hexec, State.ifReady_of_ready ⟨h, by simp [hr, hinit]⟩, haccepts hlt]

/-- An operation that is accepted in front of one host is accepted in front of every host, with the same effect. -/
theorem exec_withHost {i : Instr} {s u : State} (hop : i.isOperation = true) (hwf : WellFormed i)
    (hexec : exec i s = .next u) (hu : u.refused = none) (port : List Input) (issued : Option Encoded) :
    exec i (s.withHost port issued) = .next (u.withHost port issued) := by
  obtain ⟨href, ⟨c, rfl⟩ | ⟨-, hq, hr, rfl, -, hrow⟩ | ⟨hitem, -⟩⟩ := exec_next_cases hexec
  · cases hu
  · rw [exec_eq_accepted hop hwf (s := s.withHost port issued) ⟨href, hq⟩ hr hrow, accepted_withHost]
  · rw [hop] at hitem; cases hitem

/-! ## One operation of a blocking host -/

/-- R108: the host's next input, if there is one, waits for the queue to drain. -/
theorem hostProgram_waits (es : List Encoded) : ∀ x ∈ (hostProgram es).head?, x.arrival = .drained := by
  cases es <;> simp [hostProgram]

/-- R108, R124: an idle block takes the host's next operation in one step and then drains it, one event a step. -/
theorem run_operation {i : Instr} {s u : State} (hop : i.isOperation = true) (hwf : WellFormed i) (h : s.Idle)
    (hexec : exec i s = .next u) (hu : u.refused = none) (es : List Encoded) (issued : Option Encoded) :
    Host.Core.run core (u.queue.length + 1) (s.withHost (hostProgram (encode i :: es)) issued) =
      .next (u.drained.withHost (hostProgram es) (some (encode i))) := by
  have ⟨href, hq⟩ := h
  have htakes := step_of_arrived (s := s.withHost (hostProgram (encode i :: es)) issued) href rfl (.inr ⟨rfl, hq⟩)
    (.inl hq) (decodeOfEncodeIsIdentity i hwf)
  have haccepts := exec_withHost hop hwf hexec hu (hostProgram es) (some (encode i))
  rw [run_succ_of_next (htakes.trans haccepts)]
  exact queueDrainsCompletely (u.withHost (hostProgram es) (some (encode i))) hu (hostProgram_waits es)

/-! ## The whole run -/

/-- A run is cut at any number of its steps. -/
theorem run_add_of_next {m : Nat} {s t : State} (h : Host.Core.run core m s = .next t) (n : Nat) :
    Host.Core.run core (m + n) s = Host.Core.run core n t := by
  induction m generalizing s with
  | zero => cases h; rw [Nat.zero_add]
  | succ m ih =>
    rw [Nat.succ_add]
    simp only [Host.Core.run] at h ⊢
    cases hs : core.step s with
    | next s' =>
      rw [hs] at h
      exact ih h
    | fault f => rw [hs] at h; cases h
    | refused r => rw [hs] at h; cases h

/-- R124 from any host: the block ends idle in the state `runOps` gives, its host's inputs used up. -/
theorem run_hostProgram {is : List Instr} (his : ∀ i ∈ is, WellFormed i ∧ i.isOperation = true) {s t : State}
    (h : s.Idle) (hrun : runOps is s = some t) (issued : Option Encoded) :
    t.Idle ∧ ∃ k last, Host.Core.run core k (s.withHost (hostProgram (is.map encode)) issued) =
      .next (t.withHost [] last) := by
  induction is generalizing s issued with
  | nil =>
    cases hrun
    exact ⟨h, 0, issued, rfl⟩
  | cons i is ih =>
    obtain ⟨⟨hwf, hop⟩, htail⟩ := List.forall_mem_cons.mp his
    obtain ⟨u, hexec, hu, hrest⟩ := runOps_cons_eq_some.mp hrun
    have hfirst := run_operation hop hwf h hexec hu (is.map encode) issued
    obtain ⟨hidle, k, last, hk⟩ := ih htail (s := u.drained) ⟨hu, rfl⟩ hrest (some (encode i))
    refine ⟨hidle, u.queue.length + 1 + k, last, ?_⟩
    rw [List.map_cons, run_add_of_next hfirst, hk]

/-- Settles O56, by induction on the operations: each is taken in one step and drained before the next one is. -/
theorem blockingHostRunsOperationsInTurn : Obligations.BlockingHostRunsOperationsInTurn := by
  unfold Obligations.BlockingHostRunsOperationsInTurn
  intro is s t his h hport hrun
  obtain ⟨⟨href, hq⟩, k, last, hk⟩ := run_hostProgram his h hrun s.issued
  refine ⟨k, t.withHost [] last, ?run, ?ends, rfl⟩
  case run => rw [← hk, ← hport]; rfl
  case ends => simp [State.endsSuccessfully, State.withHost, href, hq]

end Sys2Proof.Machine
end

section
/-! PROOFS. What an accepted operation costs (70_reset_and_hazards.md R123): events, waits and latches. The counts of a
list of events performed with E low add up over concatenation. -/

namespace Sys2Proof.Machine

/-! ## Counts that add up -/

/-- R123: the events and waits of a list, and its latches from any state of the pins in which E is low; E is left low. -/
structure Costs (w : Wiring) (es : List Event) (events latched : Nat) (ws : List Delay) : Prop where
  length_eq : es.length = events
  waits_eq : waits es = ws
  latches_length : ∀ b : PinBank, b.e.level = .low → (latchesFrom w b es).length = latched
  e_low : ∀ b : PinBank, b.e.level = .low → (replay w b es).e.level = .low

section
variable {w : Wiring}

theorem costs_nil : Costs w [] 0 0 [] := ⟨rfl, rfl, fun _ _ => rfl, fun _ he => he⟩

theorem Costs.append {xs ys : List Event} {m n j k : Nat} {us vs : List Delay} (hx : Costs w xs m j us)
    (hy : Costs w ys n k vs) : Costs w (xs ++ ys) (m + n) (j + k) (us ++ vs) where
  length_eq := by rw [List.length_append, hx.length_eq, hy.length_eq]
  waits_eq := by rw [waits_append, hx.waits_eq, hy.waits_eq]
  latches_length b he := by
    rw [latchesFrom_append, List.length_append, hx.latches_length b he, hy.latches_length _ (hx.e_low b he)]
  e_low b he := by
    rw [replay_append]
    exact hy.e_low _ (hx.e_low b he)

theorem costs_wait (t : Delay) : Costs w [.wait t] 1 0 [t] where
  length_eq := rfl
  waits_eq := rfl
  latches_length _ _ := by simp [latchesFrom, isLatch]
  e_low _ he := he

variable (hw : w.Distinct)
include hw

/-- R73: SEND is sixteen events, two latches and one wait. -/
theorem costs_send (rs : Bool) (b : Nat) : Costs w (sendEvents w rs b) 16 2 [.cmd] where
  length_eq := rfl
  waits_eq := rfl
  latches_length p he := by rw [latchesFrom_sendEvents hw p he]; rfl
  e_low p _ := by rw [replay_sendEvents hw]; rfl

theorem costs_long (b : Nat) : Costs w (longCommandEvents w b) 17 2 [.cmd, .long] :=
  (costs_send hw false b).append (costs_wait .long)

/-- R95: one SEND per data byte. -/
theorem costs_data (bs : List Byte) :
    Costs w (dataEvents w bs) (16 * bs.length) (2 * bs.length) (List.replicate bs.length .cmd) := by
  induction bs with
  | nil => exact costs_nil
  | cons b bs ih =>
    have h := (costs_send hw true b.toNat).append ih
    rwa [Nat.add_comm 16, Nat.add_comm 2] at h

/-- R92: ten SENDs, the address, the eight rows and the return. -/
theorem costs_glyph (index : Byte) (g : Glyph) :
    Costs w (glyphEvents w index g) 160 20 (List.replicate 10 .cmd) :=
  (costs_send hw false (cgramByte index)).append
    ((costs_data hw g.rows).append (costs_send hw false (ddramByte 0)))

end

/-! ## From a list of events to a block that accepts it -/

/-- R72, R74: after INIT, E is low once what is pending has drained. -/
theorem Good.e_low {w : Wiring} {es : List Event} (h : Good w es) : (replay w PinBank.reset es).e.level = .low := by
  obtain ⟨he, -⟩ := (Bool.and_eq_true _ _).mp h.settled
  exact of_decide_eq_true he

/-- R14, R123: a ready block whose empty queue received the events `es`, its wiring and trace unchanged. -/
theorem counts_of_costs {s t : State} {es : List Event} {events latched : Nat} {ws : List Delay} (h : Inv s)
    (hr : s.ready = true) (hq : s.queue = []) (hwiring : t.wiring = s.wiring) (htrace : t.trace = s.trace)
    (hqueue : t.queue = s.queue ++ es) (hcost : Costs s.wiring es events latched ws) :
    t.queue.length = events ∧ waits t.queue = ws ∧
      (latches t.wiring t.history).length = (latches s.wiring s.history).length + latched := by
  have hes : t.queue = es := by rw [hqueue, hq, List.nil_append]
  have hhistory : t.history = s.history ++ es := by
    rw [State.history, State.history, htrace, hqueue, List.append_assoc]
  refine ⟨hes ▸ hcost.length_eq, hes ▸ hcost.waits_eq, ?_⟩
  rw [hwiring, hhistory, latches_append, List.length_append, hcost.latches_length _ (h.good hr).e_low]

/-- R70: with nothing pending, an accepted INIT's queue is its expansion. -/
theorem accepted_init_queue {s : State} (hq : s.queue = []) (cols rows : Option Byte) (csize : Option (BitVec 1)) :
    (accepted (.init cols rows csize) s).queue =
      initEvents s.wiring (funcFlags (override rows s.rows) (override csize s.csize)) := by
  simp [accepted, hq]

/-- Settles O34: INIT is counted from reset, where nothing has happened; every other operation is counted from E low. -/
theorem eventsWaitsAndLatchesPerOperation : Obligations.EventsWaitsAndLatchesPerOperation := by
  unfold Obligations.EventsWaitsAndLatchesPerOperation
  intro i s t h hop hexec href
  have hw := h.distinct
  obtain ⟨-, ⟨c, rfl⟩ | ⟨-, hq, hr, rfl, -, hrow⟩ | ⟨hitem, -⟩⟩ := exec_next_cases hexec
  · cases href
  · cases i with
    | init cols rows csize =>
      obtain ⟨hempty, -⟩ := h.before_init hr
      refine ⟨?events, ?waits, ?latches⟩
      case events => rw [accepted_init_queue hq, initEvents_length]
      case waits => rw [accepted_init_queue hq]; rfl
      case latches =>
        rw [accepted_wiring, accepted_init_history, hempty, List.nil_append, latches_initEvents_length hw]
        rfl
    | clear | home => exact counts_of_costs h hr hq rfl rfl rfl (costs_long hw _)
    | defglyph index bitmap => exact counts_of_costs h hr hq rfl rfl rfl (costs_glyph hw index bitmap)
    | print text => exact counts_of_costs h hr hq rfl rfl rfl (costs_data hw text)
    | setcur column row =>
      obtain ⟨addr, haddr⟩ := Option.isSome_iff_exists.mp (hrow column row rfl)
      simp only [accepted, haddr]
      exact counts_of_costs h hr hq rfl rfl rfl (costs_send hw false (ddramByte addr))
    | wClear | wHome | wEntry | wDispctl | wShift | wFunc | wCgram | wDdram | wData | nWake | nCommit4 => cases hop
    | _ => exact counts_of_costs h hr hq rfl rfl rfl (costs_send hw _ _)
  · rw [hop] at hitem; cases hitem

end Sys2Proof.Machine
end

section
/-! PROOFS. The pins once INIT has drained (70_reset_and_hazards.md R112): INIT configures all six, and its last SEND, the
byte 0x01, fixes every level. -/

namespace Sys2Proof.Machine

/-- R29: a list of events that configures every pin leaves every pin an output, from any state of the pins. -/
theorem allOutput_replay {w : Wiring} {es : List Event} (h : ∀ p ∈ w.pins, .cfg p ∈ es) (b : PinBank) :
    (replay w b es).allOutput = true := by
  simp only [Wiring.pins, List.forall_mem_cons] at h
  obtain ⟨hrs, he, hd0, hd1, hd2, hd3, -⟩ := h
  have hmode := replay_mode w b es
  simp [PinBank.allOutput,
    (hmode PinBank.rs w.rs fun _ _ => rfl).mpr (.inr hrs), (hmode PinBank.e w.e fun _ _ => rfl).mpr (.inr he),
    (hmode PinBank.d0 w.d0 fun _ _ => rfl).mpr (.inr hd0), (hmode PinBank.d1 w.d1 fun _ _ => rfl).mpr (.inr hd1),
    (hmode PinBank.d2 w.d2 fun _ _ => rfl).mpr (.inr hd2), (hmode PinBank.d3 w.d3 fun _ _ => rfl).mpr (.inr hd3)]

/-- R112: the pins after W.CLEAR, `D[3:0] = 0b0001` and RS and E low. -/
def PinBank.cleared : PinBank where
  rs := ⟨.output, .low⟩
  e  := ⟨.output, .low⟩
  d0 := ⟨.output, .high⟩
  d1 := ⟨.output, .low⟩
  d2 := ⟨.output, .low⟩
  d3 := ⟨.output, .low⟩

/-- R73: SEND writes all six levels, so only the modes are left from before. -/
theorem PinBank.afterSend_clearByte {b : PinBank} (h : b.allOutput = true) :
    b.afterSend false clearByte = PinBank.cleared := by
  simp only [PinBank.allOutput, List.all_cons, List.all_nil, Bool.and_true, Bool.and_eq_true, decide_eq_true_eq] at h
  obtain ⟨hrs, he, hd0, hd1, hd2, hd3⟩ := h
  simp only [PinBank.afterSend, PinBank.afterNibble, hrs, he, hd0, hd1, hd2, hd3]
  rfl

/-- R70, R112: INIT's expansion settles the pins, whatever they were. -/
theorem replay_initEvents {w : Wiring} (hw : w.Distinct) (b : PinBank) (f : Byte) :
    replay w b (initEvents w f) = PinBank.cleared := by
  have hsplit : initEvents w f = (configureEvents w ++ (wakeEvents w ++ sendEvents w false (funcByte f)
      ++ sendEvents w false (ctrlByte initialCtrl) ++ sendEvents w false (entryByte initialEntry)))
      ++ (sendEvents w false clearByte ++ [.wait .long]) := rfl
  have hcfg : ∀ p ∈ w.pins, .cfg p ∈ configureEvents w := by simp [Wiring.pins, configureEvents]
  have hout := fun rest => allOutput_replay (fun p hp => List.mem_append_left rest (hcfg p hp)) b
  rw [hsplit, replay_append, replay_append, replay_sendEvents hw, PinBank.afterSend_clearByte (hout _)]
  rfl

/-- Settles O37: an idle block's queue is INIT's expansion alone, which settles the pins; draining changes no shadow. -/
theorem initLeavesThePinsSettled : Obligations.InitLeavesThePinsSettled := by
  unfold Obligations.InitLeavesThePinsSettled
  intro cols rows csize s hidle hr hw
  have ⟨_, hq⟩ := hidle
  refine ⟨_, exec_init_of_unready hidle hr cols rows csize, ?_, rfl, rfl, rfl, rfl⟩
  rw [State.drained_pins, accepted_wiring, accepted_pins, accepted_init_queue hq]
  exact replay_initEvents hw s.pins _

end Sys2Proof.Machine
end
